-- ==== Sys2Proof/Word.lean ====
section
/-! DEFINITION. The bit strings of the machine (R6: every address, register and offset is `bits(32)`; R7: bit 0 is the least
significant). `+` and `-` on `Word` wrap modulo 2^32, as R8 and R60 say; concatenation `a : b` is `a ++ b`. -/

namespace Sys2Proof

/-- `bits(32)`: PC, LR, addresses, immediates, and the 32 bits of an encoding (R6, R35). -/
abbrev Word := BitVec 32

/-- One halfword of a T32 encoding (R35). -/
abbrev Halfword := BitVec 16

/-- One byte of P_PROGRAM (R25). -/
abbrev Byte := BitVec 8

/-- A one-bit field of an encoding: `H`, `S`, `J1`, `J2` (R36 to R39). -/
abbrev Bit := BitVec 1

end Sys2Proof
end

