-- ==== Sys2Proof/Config.lean ====
section
/-! DEFINITION. The parameters of R6 that hold one value for the machine. P_PROGRAM and P_RESET_STATE, which R6 leaves OPEN, are
state (`Machine.State.mem`, `Machine.State.reset`); P_HAS_A32 and P_HAS_T32 are both true, so nothing tests them (log 17).
The spec leaves no result of a completed instruction open, so there is no free value here. -/

namespace Sys2Proof

/-- P_PC_OFFSET_A32: what the PC accessor reads, less the instruction's address, in A32 state (R6, R17, D1). -/
def Config.pcOffsetA32 : Word := 8#32

/-- P_PC_OFFSET_T32: the same in T32 state (R6, R17, D1). -/
def Config.pcOffsetT32 : Word := 4#32

/-- The length in bytes of each of the four encodings (R28, R35, D2). -/
def Config.instrBytes : Word := 4#32

end Sys2Proof
end

