-- ==== Sys2Proof/Syntax.lean ====
section
/-! DEFINITION. The instruction as data: one constructor for each of the four rows of the opcode table (R44), carrying the
fields of its encoding diagram (R36 to R39), and the enumerations D00 names (R10). -/

namespace Sys2Proof

/-- "enumeration InstrSet" (R10, R56). `a64` is a member of the enumeration and is never current in AArch32 state (R20). -/
inductive InstrSet where
  | a64
  | a32
  | t32
  deriving DecidableEq, Repr

/-- "enumeration BranchType" (R10, R24), the second argument of `BranchWritePC`. -/
inductive BranchType where
  | dirCall
  | indCall
  | eret
  | dbgExit
  | ret
  | dir
  | indir
  | exception
  | tmFail
  | reset
  | unknown
  deriving DecidableEq, Repr

/-- The page's names for the four encodings (R12, R35). -/
inductive Encoding where
  | a1
  | a2
  | t1
  | t2
  deriving DecidableEq, Repr

/-- The instruction-set bit `T` under which an encoding is read (R35, R48): `false` is A32, `true` is T32 (R20). -/
def Encoding.tbit : Encoding → Bool
  | .a1 => false
  | .a2 => false
  | .t1 => true
  | .t2 => true

/-- The instructions of this hardware, each with the fields of its diagram from the most significant down. -/
inductive Instr where
  /-- `BL<c> <label>`, A1 (R36, R64). -/
  | blA1 (cond : BitVec 4) (imm24 : BitVec 24)
  /-- `BLX <label>`, A2 (R37, R65). -/
  | blxA2 (H : Bit) (imm24 : BitVec 24)
  /-- `BL<c> <label>`, T1 (R38, R66). -/
  | blT1 (S : Bit) (imm10 : BitVec 10) (J1 J2 : Bit) (imm11 : BitVec 11)
  /-- `BLX<c> <label>`, T2 (R39, R67); `H = 1` decodes to this row and is then UNDEFINED (R44, R45). -/
  | blxT2 (S : Bit) (imm10H : BitVec 10) (J1 J2 : Bit) (imm10L : BitVec 10) (H : Bit)
  deriving DecidableEq, Repr

/-- Which encoding an instruction was read from. -/
def Instr.encoding : Instr → Encoding
  | .blA1 _ _ => .a1
  | .blxA2 _ _ => .a2
  | .blT1 _ _ _ _ _ => .t1
  | .blxT2 _ _ _ _ _ _ => .t2

/-- The instruction-set bit `T` an instruction needs ("Applies when", R64 to R67). -/
def Instr.tbit (i : Instr) : Bool := i.encoding.tbit

end Sys2Proof
end

