-- ==== Sys2Proof/WellFormed.lean ====
section
/-! DEFINITION. Which instructions have an encoding. The diagrams allow every value of every field but one: A1's `cond` is not
`1111` (R36, R46: "D00 gives no other reserved value of any field"). -/

namespace Sys2Proof

/-- An A1 whose condition field is not the one that makes the word an A2 (R36, R46). -/
def condAllowed (cond : BitVec 4) : Bool := cond != 0b1111#4

/-- The instruction is one that an encoding of R36 to R39 can hold. -/
def Instr.wf : Instr → Bool
  | .blA1 cond _ => condAllowed cond
  | .blxA2 _ _ => true
  | .blT1 _ _ _ _ _ => true
  | .blxT2 _ _ _ _ _ _ => true

end Sys2Proof
end

