-- ==== Sys2Proof/Decode.lean ====
section
/-! DEFINITION. The decoder of R44 and the encoder of R36 to R39.

A 32-bit encoding is the value `w` of R44: the A32 word, or `hw1 : hw2` in T32. `wordOfBytes` and `bytesOfWord` are the only
places where the order of its bytes in memory (R26) is decided. -/

namespace Sys2Proof

/-! ### Bytes and words (R26) -/

/-- The value `w` of R44 from the four bytes at `pc`, `pc + 1`, `pc + 2`, `pc + 3` (R26): a little-endian word in A32, two
little-endian halfwords with `hw1` first in T32. -/
def wordOfBytes (t : Bool) (b0 b1 b2 b3 : Byte) : Word :=
  if t then (b1 ++ b0) ++ (b3 ++ b2) else (b3 ++ b2) ++ (b1 ++ b0)

/-- The four bytes of an encoding in address order, the other direction of `wordOfBytes` (R26). -/
def bytesOfWord (t : Bool) (w : Word) : List Byte :=
  if t then [w.extractLsb' 16 8, w.extractLsb' 24 8, w.extractLsb' 0 8, w.extractLsb' 8 8]
  else [w.extractLsb' 0 8, w.extractLsb' 8 8, w.extractLsb' 16 8, w.extractLsb' 24 8]

/-! ### The opcode map (R44) -/

/-- One row of the table of R44. -/
structure OpcodeRow where
  encoding : Encoding
  mask : Word
  pattern : Word
  /-- the row's further condition `w[31:28] != 1111` (A1 only) -/
  condNot1111 : Bool
  deriving DecidableEq, Repr

/-- The four rows of R44. -/
def opcodeRows : List OpcodeRow :=
  [ ⟨.a1, 0x0F000000#32, 0x0B000000#32, true⟩,
    ⟨.a2, 0xFE000000#32, 0xFA000000#32, false⟩,
    ⟨.t1, 0xF800D000#32, 0xF000D000#32, false⟩,
    ⟨.t2, 0xF800D000#32, 0xF000C000#32, false⟩ ]

/-- The row selects the value `w` under the instruction-set bit `t` (R44: `(w AND mask) = match`, and the row's further
condition). -/
def OpcodeRow.selects (r : OpcodeRow) (t : Bool) (w : Word) : Bool :=
  r.encoding.tbit == t && (w &&& r.mask) == r.pattern && (!r.condNot1111 || condAllowed (w.extractLsb' 28 4))

/-- The fields of `w` under an encoding (R36 to R39). -/
def fieldsOf (e : Encoding) (w : Word) : Instr :=
  match e with
  | .a1 => .blA1 (w.extractLsb' 28 4) (w.extractLsb' 0 24)
  | .a2 => .blxA2 (w.extractLsb' 24 1) (w.extractLsb' 0 24)
  | .t1 => .blT1 (w.extractLsb' 26 1) (w.extractLsb' 16 10) (w.extractLsb' 13 1) (w.extractLsb' 11 1) (w.extractLsb' 0 11)
  | .t2 =>
    .blxT2 (w.extractLsb' 26 1) (w.extractLsb' 16 10) (w.extractLsb' 13 1) (w.extractLsb' 11 1) (w.extractLsb' 1 10)
      (w.extractLsb' 0 1)

/-- Why bytes are not one of the four instructions. In a run each is the refusal `NotDescribed` (R44, D17). -/
inductive Undecoded where
  /-- an A32 word that matches neither A1 nor A2 (R44) -/
  | noA32Row (w : Word)
  /-- a 32-bit T32 value that matches neither T1 nor T2 (R44) -/
  | noT32Row (w : Word)
  /-- a first halfword that starts a 16-bit T32 instruction (R48): this page gives no 16-bit encoding -/
  | narrowT32 (hw1 : Halfword)
  /-- fewer bytes than the instruction needs -/
  | tooFewBytes (available : Nat)
  deriving DecidableEq, Repr

/-- The first halfword starts a 32-bit T32 instruction (R48, D22). -/
def isWideT32 (hw1 : Halfword) : Bool :=
  let top := hw1.extractLsb' 11 5
  top == 0b11101#5 || top == 0b11110#5 || top == 0b11111#5

/-- Why a value that no row selects is not an instruction of this page. -/
def whyNoRow (t : Bool) (w : Word) : Undecoded :=
  if t then
    if isWideT32 (w.extractLsb' 16 16) then .noT32Row w else .narrowT32 (w.extractLsb' 16 16)
  else .noA32Row w

/-- The decoder of R44: the instruction-set bit and the value `w` to the instruction of the row that selects it. -/
def decodeWord (t : Bool) (w : Word) : Except Undecoded Instr :=
  match opcodeRows.find? (fun r => r.selects t w) with
  | some r => .ok (fieldsOf r.encoding w)
  | none => .error (whyNoRow t w)

/-- The decoder on bytes in address order: the instruction and the bytes after it. -/
def decodeBytes (t : Bool) (bytes : List Byte) : Except Undecoded (Instr × List Byte) :=
  match bytes with
  | b0 :: b1 :: b2 :: b3 :: rest =>
    match decodeWord t (wordOfBytes t b0 b1 b2 b3) with
    | .ok i => .ok (i, rest)
    | .error why => .error why
  | [b0, b1, _] => if t && !isWideT32 (b1 ++ b0) then .error (.narrowT32 (b1 ++ b0)) else .error (.tooFewBytes 3)
  | [b0, b1] => if t && !isWideT32 (b1 ++ b0) then .error (.narrowT32 (b1 ++ b0)) else .error (.tooFewBytes 2)
  | [_] => .error (.tooFewBytes 1)
  | [] => .error (.tooFewBytes 0)

/-! ### The encoder (R36 to R39) -/

/-- The value `w` of an instruction: the diagrams of R36 to R39, fields and fixed bits from bit 31 down. -/
def encodeWord : Instr → Word
  | .blA1 cond imm24 => cond ++ 0b101#3 ++ 1#1 ++ imm24
  | .blxA2 H imm24 => 0b1111#4 ++ 0b101#3 ++ H ++ imm24
  | .blT1 S imm10 J1 J2 imm11 => 0b11110#5 ++ S ++ imm10 ++ 0b11#2 ++ J1 ++ 1#1 ++ J2 ++ imm11
  | .blxT2 S imm10H J1 J2 imm10L H => 0b11110#5 ++ S ++ imm10H ++ 0b11#2 ++ J1 ++ 0#1 ++ J2 ++ imm10L ++ H

/-- The bytes of an instruction in address order. -/
def encode (i : Instr) : List Byte := bytesOfWord i.tbit (encodeWord i)

/-! ### The host's view of the opcode table -/

/-- The 32 bits of a table word of which `nbits` are given: every bit above them is 0. The table numbers a T32 pair as
`hw1 : hw2`, `hw1` in bits 31 to 16 (R44; log 5). -/
def tableWord (nbits w : Nat) : Word := BitVec.ofNat 32 (w % 2 ^ nbits)

/-- The instruction-set bit a table word is read under: the rows of R44 are disjoint whatever `T`, so at most one set has a row
for it. -/
def tableSet (w : Word) : Option Bool := (opcodeRows.find? (fun r => r.selects r.encoding.tbit w)).map (fun r => r.encoding.tbit)

/-- DEDUCED (log 5). The instruction this decoder reads from a word numbered as the opcode table numbers it, laid out as the
hardware stores it. -/
def decodeTableWord (nbits w : Nat) : Option Instr :=
  match tableSet (tableWord nbits w) with
  | none => none
  | some t =>
    match decodeBytes t (bytesOfWord t (tableWord nbits w)) with
    | .ok (i, _) => some i
    | .error _ => none

end Sys2Proof
end

