-- ==== Sys2Proof/Machine/State.lean ====
section
/-! DEFINITION. The state of the machine ("The state of the model, in full", at the head of spec/10_state.md), the reasons a step
can stop (R11), and the state after reset (R90 gives no value: log 2). -/

namespace Sys2Proof.Machine

/-- Why the model refuses as `NotDescribed` (R11: no row matches, "or the state is one this spec gives no meaning"). -/
inductive NotDescribed where
  /-- `pc` is not a multiple of 4 in A32 state or of 2 in T32 state (R18(c), R68, D7). -/
  | misalignedPc (pc : Word)
  /-- `T = 0` and `IT` not zero, or `IT[3:0] = 0000` and `IT[7:4]` not zero (R21, R68). -/
  | illegalIt (it : BitVec 8)
  /-- The fetched value matches no row of its instruction set (R44, R68, D17). -/
  | noRow (word : Word)
  /-- An instruction of the instruction set that is not current: no step meets it, only `exec` handed one directly (log 10). -/
  | otherInstrSet (word : Word)
  deriving DecidableEq, Repr

/-- What stops the machine with a fault. -/
inductive Fault where
  /-- UNDEFINED (R76, D5): raised by T2 with `H = 1`, recording `pc` and the 32 bits (R80). Safe: hardware takes an exception
  there, whose entry the spec leaves OPEN (log 7). -/
  | undefined (pc : Word) (word : Word)
  /-- Stuck (R25, R68): raised by the fetch when P_PROGRAM has no byte at `addr`. Safe: no step is claimed (log 3). -/
  | stuck (addr : Word)
  deriving DecidableEq, Repr

/-- What the model refuses to give a meaning. -/
inductive Refusal where
  /-- Raised by an arm of `exec` whose instruction has no meaning yet. Safe. No arm answers it now. -/
  | notModelled (mnemonic : String)
  /-- UNPREDICTABLE (R77, D4): raised by T1 and T2 inside an IT block and not last in it. Safe (log 8). -/
  | unpredictable (word : Word)
  /-- `NotDescribed` (R11): raised by the checks of R68 before and after fetch. Safe (D7, D17). -/
  | notDescribed (why : NotDescribed)
  deriving DecidableEq, Repr

/-- What the outcome mark records once it is set: "set by `Undefined`, `Unpredictable`, `NotDescribed` and never cleared"
(spec/10_state.md; log 6). -/
inductive Mark where
  | undefined (pc : Word) (word : Word)
  | unpredictable (word : Word)
  | notDescribed (why : NotDescribed)
  deriving DecidableEq, Repr

/-- The mark a fault leaves; being stuck leaves none (R25: there is no step). -/
def Fault.mark : Fault → Option Mark
  | .undefined pc word => some (.undefined pc word)
  | .stuck _ => none

/-- The mark a refusal leaves. -/
def Refusal.mark : Refusal → Option Mark
  | .unpredictable word => some (.unpredictable word)
  | .notDescribed why => some (.notDescribed why)
  | _ => none

/-- A reason for a step to have no next state. -/
inductive Stop where
  | fault (f : Fault)
  | refused (r : Refusal)
  deriving DecidableEq, Repr

/-- The stop a mark stands for. -/
def Mark.stop : Mark → Stop
  | .undefined pc word => .fault (.undefined pc word)
  | .unpredictable word => .refused (.unpredictable word)
  | .notDescribed why => .refused (.notDescribed why)

/-- P_PROGRAM (R6, R25): addresses with the byte there, strictly rising. An address not listed has no byte (log 3). -/
abbrev Memory := List Host.Cell

/-- The state `(R, pc, N, Z, C, V, T, IT)` of R68 with P_PROGRAM and the outcome mark. -/
@[ext]
structure State where
  /-- `R[0]` to `R[14]` (R9, R13); `R[14]` is LR (R14) -/
  regs : Vector Word 15
  /-- the address of the instruction being executed, not D00's `PC` (R9, R16) -/
  pc : Word
  n : Bool
  z : Bool
  c : Bool
  v : Bool
  /-- the instruction-set bit: `false` is 0, A32; `true` is 1, T32 (R20) -/
  t : Bool
  /-- the 8-bit IT state (R21) -/
  it : BitVec 8
  /-- P_PROGRAM (R25) -/
  mem : Memory
  /-- the outcome mark; clear in every state a step answers (R90) -/
  mark : Option Mark
  deriving DecidableEq, Repr

/-- DESIGN CHOICE (log 2). R90: no source gives a reset value; P_RESET_STATE is OPEN. Registers, flags and pc are zero, the
instruction set is A32 with the IT state that A32 requires, no program is loaded, the mark is clear. -/
def State.reset : State where
  regs := Vector.replicate 15 0#32
  pc := 0#32
  n := false
  z := false
  c := false
  v := false
  t := false
  it := 0#8
  mem := []
  mark := none

end Sys2Proof.Machine
end

