-- ==== Sys2Proof/Machine/Flags.lean ====
section
/-! DEFINITION. The condition test and the IT state. No instruction of the page writes a flag (R19); the flags are read here
only. -/

namespace Sys2Proof.Machine

/-! ### The IT state (R21, R57) -/

/-- `InITBlock()`: `IT[3:0] != 0000` (R57, D18). -/
def inITBlock (it : BitVec 8) : Bool := it.extractLsb' 0 4 != 0b0000#4

/-- `LastInITBlock()`: `IT[3:0] = 1000` (R57, D18). -/
def lastInITBlock (it : BitVec 8) : Bool := it.extractLsb' 0 4 == 0b1000#4

/-- The test at the end of the T1 and T2 Decodes, `InITBlock() && !LastInITBlock()` (R57, R77). -/
def midITBlock (it : BitVec 8) : Bool := inITBlock it && !lastInITBlock it

/-- How `IT` advances after a T32 instruction (R21): to zero when `IT[2:0] = 000`, else `IT[4:0]` shifts left by one under an
unchanged `IT[7:5]`. -/
def itAdvance (it : BitVec 8) : BitVec 8 :=
  if it.extractLsb' 0 3 == 0b000#3 then 0#8 else it.extractLsb' 5 3 ++ it.extractLsb' 0 4 ++ 0#1

/-- The legal values of `IT` under `T` (R21): zero, or in T32 state any value with `IT[3:0] != 0000`. -/
def itLegal (t : Bool) (it : BitVec 8) : Bool := it == 0#8 || (t && inITBlock it)

/-! ### The condition (R55) -/

/-- The current condition in T32 state: `IT[7:4]` inside an IT block, `1110` outside (R55, R66, R67). -/
def itCondition (it : BitVec 8) : BitVec 4 := if inITBlock it then it.extractLsb' 4 4 else 0b1110#4

/-- The base test that `cc[3:1]` names (R55). -/
def baseTest (cc : BitVec 4) (n z c v : Bool) : Bool :=
  match cc.extractLsb' 1 3 with
  | 0b000#3 => z
  | 0b001#3 => c
  | 0b010#3 => n
  | 0b011#3 => v
  | 0b100#3 => c && !z
  | 0b101#3 => n == v
  | 0b110#3 => n == v && !z
  | _ => true

/-- `ConditionHolds(cc, N, Z, C, V)` (R55): the base test, inverted when `cc[0] = 1` and `cc != 1111`. -/
def conditionHolds (cc : BitVec 4) (n z c v : Bool) : Bool :=
  if cc.getLsbD 0 && cc != 0b1111#4 then !baseTest cc n z c v else baseTest cc n z c v

/-- `ConditionPassed()` under the current condition `cc` (R55). -/
def State.conditionPassed (cc : BitVec 4) (s : State) : Bool := conditionHolds cc s.n s.z s.c s.v

end Sys2Proof.Machine
end

