-- ==== Sys2Proof/Machine/Operands.lean ====
section
/-! DEFINITION. What each Decode computes from the fields of its encoding: `imm32` (R40 to R43), `targetInstrSet`, and the
condition the instruction executes under (R55). -/

namespace Sys2Proof.Machine

/-- `I1 = NOT(J1 EOR S)`, `I2 = NOT(J2 EOR S)` (R42, R43). -/
def iBit (J S : Bit) : Bit := ~~~(J ^^^ S)

/-- A1: `imm32 = sext_32(imm24 : '00')` (R40). -/
def imm32A1 (imm24 : BitVec 24) : Word := (imm24 ++ 0b00#2).signExtend 32

/-- A2: `imm32 = sext_32(imm24 : H : '0')` (R41). -/
def imm32A2 (H : Bit) (imm24 : BitVec 24) : Word := (imm24 ++ H ++ 0#1).signExtend 32

/-- T1: `imm32 = sext_32(S : I1 : I2 : imm10 : imm11 : '0')` (R42). -/
def imm32T1 (S : Bit) (imm10 : BitVec 10) (J1 J2 : Bit) (imm11 : BitVec 11) : Word :=
  (S ++ iBit J1 S ++ iBit J2 S ++ imm10 ++ imm11 ++ 0#1).signExtend 32

/-- T2: `imm32 = sext_32(S : I1 : I2 : imm10H : imm10L : '00')` (R43). -/
def imm32T2 (S : Bit) (imm10H : BitVec 10) (J1 J2 : Bit) (imm10L : BitVec 10) : Word :=
  (S ++ iBit J1 S ++ iBit J2 S ++ imm10H ++ imm10L ++ 0b00#2).signExtend 32

/-- `imm32` of an instruction, by its encoding's Decode. -/
def immOf : Instr → Word
  | .blA1 _ imm24 => imm32A1 imm24
  | .blxA2 H imm24 => imm32A2 H imm24
  | .blT1 S imm10 J1 J2 imm11 => imm32T1 S imm10 J1 J2 imm11
  | .blxT2 S imm10H J1 J2 imm10L _ => imm32T2 S imm10H J1 J2 imm10L

/-- `targetInstrSet` of an encoding (R40 to R43). -/
def targetSetOf : Encoding → InstrSet
  | .a1 => .a32
  | .a2 => .t32
  | .t1 => .t32
  | .t2 => .a32

/-- A2's condition field, which is fixed (R37, R65). -/
def condA2 : BitVec 4 := 0b1111#4

/-- The current condition `cc` of R55: the `cond` field in A32, the IT state's condition in T32. -/
def conditionOf (i : Instr) (it : BitVec 8) : BitVec 4 :=
  match i with
  | .blA1 cond _ => cond
  | .blxA2 _ _ => condA2
  | .blT1 _ _ _ _ _ => itCondition it
  | .blxT2 _ _ _ _ _ _ => itCondition it

end Sys2Proof.Machine
end

