-- ==== Sys2Proof/Machine/Ops.lean ====
section
/-! DEFINITION. The named operations of the machine: registers, P_PROGRAM, the instruction-set bit, the branch, the Operation
that the four encodings share (R69), the two abnormal outcomes (R76, R77), and the fetch of R68. -/

namespace Sys2Proof.Machine

/-! ### Registers (R9, R13, R14, R59) -/

/-- `R[i]`, 0 to 14 (R9). -/
def State.reg (i : Fin 15) (s : State) : Word := s.regs.get i

/-- `R[i] <- v` (R9). -/
def State.setReg (i : Fin 15) (value : Word) (s : State) : State := { s with regs := s.regs.set i value }

/-- LR, which is `R[14]` (R14). -/
def State.lr (s : State) : Word := s.reg 14

/-- The LR accessor: `R[14] <- value`, all 32 bits (R59). -/
def State.setLr (value : Word) (s : State) : State := s.setReg 14 value

/-! ### P_PROGRAM (R25) -/

/-- The byte at an address, if P_PROGRAM has one (R25; log 3). -/
def Memory.read : Memory → Nat → Option Byte
  | [], _ => none
  | (k, b) :: rest, a => if k = a then some b else Memory.read rest a

/-- Put a byte at an address, keeping the addresses strictly rising. No instruction does this (R28): it stands for the loading
of a program. -/
def Memory.write : Memory → Nat → Byte → Memory
  | [], a, b => [(a, b)]
  | (k, b') :: rest, a, b =>
    if a < k then (a, b) :: (k, b') :: rest
    else if k = a then (a, b) :: rest
    else (k, b') :: Memory.write rest a b

/-- The canonical form: addresses of 32 bits, strictly rising. -/
abbrev Memory.wf (m : Memory) : Prop := m.Pairwise (fun x y => x.1 < y.1) ∧ ∀ x ∈ m, x.1 < 2 ^ 32

/-- `IFetch(addr, 1)` (R9). -/
def State.fetchByte (s : State) (addr : Word) : Option Byte := Memory.read s.mem addr.toNat

/-- Load bytes at consecutive addresses, modulo 2^32. -/
def loadBytes (m : Memory) (addr : Word) : List Byte → Memory
  | [] => m
  | b :: rest => loadBytes (Memory.write m addr.toNat b) (addr + 1#32) rest

/-! ### The current instruction set (R20, R56, R61) -/

/-- `CurrentInstrSet()`: A32 when `T = 0`, T32 when `T = 1` (R56). -/
def State.currentInstrSet (s : State) : InstrSet := if s.t then .t32 else .a32

/-- `SelectInstrSet(iset)`: `T <- 0` for A32, `T <- 1` for T32, nothing else (R61). It is never called with A64 (R20; log 16). -/
def State.selectInstrSet (iset : InstrSet) (s : State) : State :=
  match iset with
  | .a32 => { s with t := false }
  | .t32 => { s with t := true }
  | .a64 => s

/-! ### PC (R17, R54, R58, R62) -/

/-- `PCread`, what D00's `PC` accessor returns (R17, R58). -/
def State.pcRead (s : State) : Word :=
  match s.currentInstrSet with
  | .a32 => s.pc + Config.pcOffsetA32
  | _ => s.pc + Config.pcOffsetT32

/-- `align4(x)`: bits 1:0 cleared (R54). -/
def align4 (x : Word) : Word := x.extractLsb' 2 30 ++ 0b00#2

/-- Bit 0 cleared: what `BranchWritePC` does to an address in T32 state (R62). -/
def align2 (x : Word) : Word := x.extractLsb' 1 31 ++ 0#1

/-- `BranchWritePC(address_in, branch_type)` (R62): force the alignment of the selected instruction set, then `pc <- address`.
The branch type has no architectural effect (R24, D21). -/
def State.branchWritePC (address : Word) (_branchType : BranchType) (s : State) : State :=
  match s.currentInstrSet with
  | .a32 => { s with pc := align4 address }
  | _ => { s with pc := align2 address }

/-- `pc <- pc + 4`: the next instruction in memory (R18(b), R72). -/
def State.toNextInstr (s : State) : State := { s with pc := s.pc + Config.instrBytes }

/-! ### The Operation (R69) -/

/-- The link value (R69, R70): `PC - 4` in A32 state, `PC<31:1> : '1'` in T32 state. -/
def State.linkValue (s : State) : Word :=
  match s.currentInstrSet with
  | .a32 => s.pcRead - 4#32
  | _ => s.pcRead.extractLsb' 1 31 ++ 1#1

/-- `targetAddress` (R69): from `Align(PC,4)` when the target set is A32, else from `PC`. -/
def State.targetAddress (target : InstrSet) (imm32 : Word) (s : State) : Word :=
  match target with
  | .a32 => align4 s.pcRead + imm32
  | _ => s.pcRead + imm32

/-- The body of the Operation, for a condition that passed (R69). Link value and target are computed under the current `T`. -/
def State.linkAndBranch (target : InstrSet) (imm32 : Word) (s : State) : State :=
  ((s.setLr s.linkValue).selectInstrSet target).branchWritePC (s.targetAddress target imm32) .dirCall

/-- The Operation (R69), and the move to the next instruction when the condition failed (R72). -/
def State.operation (cc : BitVec 4) (target : InstrSet) (imm32 : Word) (s : State) : State :=
  if s.conditionPassed cc then s.linkAndBranch target imm32 else s.toNextInstr

/-- `ITAdvance` after a T32 instruction, whether its condition passed or failed (R21, R72). -/
def State.advanceIT (s : State) : State := { s with it := itAdvance s.it }

/-! ### The outcomes of a step (R11) -/

/-- `Host.Outcome` of this machine. -/
abbrev Outcome := Host.Outcome State Fault Refusal

/-- A stop as an outcome. -/
def Stop.outcome : Stop → Outcome
  | .fault f => .fault f
  | .refused r => .refused r

/-- UNDEFINED: the fault records `pc` and the 32 bits, and nothing is written (R76, R80, D5). The exception entry is OPEN in
the spec (P_UNDEF_ENTRY) and is not modelled (R82; log 7). -/
def raiseUndefined (word : Word) (s : State) : Outcome := .fault (.undefined s.pc word)

/-- UNPREDICTABLE: refused (R77, D4; log 8). -/
def refuseUnpredictable (word : Word) : Outcome := .refused (.unpredictable word)

/-- DESIGN CHOICE (log 10). "Applies when `T = ...`" (R64 to R67): an instruction of the other instruction set has no meaning. -/
def whenTbit (t : Bool) (word : Word) (s : State) (meaning : Outcome) : Outcome :=
  if s.t = t then meaning else .refused (.notDescribed (.otherInstrSet word))

/-- The last test of the T1 and T2 Decodes (R77), made whatever the condition (R75). -/
def unlessMidITBlock (word : Word) (s : State) (meaning : Outcome) : Outcome :=
  if midITBlock s.it then refuseUnpredictable word else meaning

/-! ### Fetch (R26, R68) -/

/-- `pc` is a multiple of 4 in A32 state and of 2 in T32 state (R18(c), R27). -/
def pcAligned (t : Bool) (pc : Word) : Bool := if t then pc.extractLsb' 0 1 == 0#1 else pc.extractLsb' 0 2 == 0b00#2

/-- The first two lines of R68: what makes a state one the spec gives no meaning. -/
def State.illegality (s : State) : Option NotDescribed :=
  if !pcAligned s.t s.pc then some (.misalignedPc s.pc)
  else if !itLegal s.t s.it then some (.illegalIt s.it)
  else none

/-- One byte of the fetch, or stuck (R68; log 13). -/
def State.fetchByteOrStop (s : State) (addr : Word) : Except Stop Byte :=
  match s.fetchByte addr with
  | some b => .ok b
  | none => .error (.fault (.stuck addr))

/-- The fetch of R68: the value `w` of R44 from the four bytes at `pc`, lowest address first (R26, R28). -/
def State.fetchWord (s : State) : Except Stop Word :=
  match s.fetchByteOrStop s.pc with
  | .error stop => .error stop
  | .ok b0 =>
    match s.fetchByteOrStop (s.pc + 1#32) with
    | .error stop => .error stop
    | .ok b1 =>
      match s.fetchByteOrStop (s.pc + 2#32) with
      | .error stop => .error stop
      | .ok b2 =>
        match s.fetchByteOrStop (s.pc + 3#32) with
        | .error stop => .error stop
        | .ok b3 => .ok (wordOfBytes s.t b0 b1 b2 b3)

/-- R68 up to the choice of the row: the outcome mark (log 6), the checks of the state, the fetch, the decoder. -/
def State.fetchInstr (s : State) : Except Stop Instr :=
  match s.mark with
  | some m => .error m.stop
  | none =>
    match s.illegality with
    | some why => .error (.refused (.notDescribed why))
    | none =>
      match s.fetchWord with
      | .error stop => .error stop
      | .ok w =>
        match decodeWord s.t w with
        | .ok i => .ok i
        | .error _ => .error (.refused (.notDescribed (.noRow w)))

/-! ### Loading one instruction (log 4) -/

/-- Load an encoding of the instruction set `t` at `pc` and make that set current; A32 state requires `IT` zero (R21). -/
def State.placeWord (s : State) (t : Bool) (word : Word) : State :=
  { s with t := t, it := if t then s.it else 0#8, mem := loadBytes s.mem s.pc (bytesOfWord t word) }

/-- Load a word of the opcode table where `step` fetches next; a word no row selects is loaded for the current set. -/
def State.placeTableWord (s : State) (nbits w : Nat) : State :=
  match tableSet (tableWord nbits w) with
  | some t => s.placeWord t (tableWord nbits w)
  | none => s.placeWord s.t (tableWord nbits w)

end Sys2Proof.Machine
end

