-- ==== Sys2Proof/Machine/BranchLink.lean ====
section
/-! DEFINITION. The meanings of the four encodings (R64 to R67), each over the shared Operation of R69. The Decode's checks come
before the condition and regardless of it (R75; log 9): `H` first, the IT-block test last (R79). -/

namespace Sys2Proof.Machine

/-- `BL<c> <label>`, A1 (R64). -/
def execBlA1 (cond : BitVec 4) (imm24 : BitVec 24) (s : State) : Outcome :=
  whenTbit false (encodeWord (.blA1 cond imm24)) s <|
    .next (s.operation cond .a32 (imm32A1 imm24))

/-- `BLX <label>`, A2 (R65): `cond` is fixed `1111`, which always passes. -/
def execBlxA2 (H : Bit) (imm24 : BitVec 24) (s : State) : Outcome :=
  whenTbit false (encodeWord (.blxA2 H imm24)) s <|
    .next (s.operation condA2 .t32 (imm32A2 H imm24))

/-- `BL<c> <label>`, T1 (R66). -/
def execBlT1 (S : Bit) (imm10 : BitVec 10) (J1 J2 : Bit) (imm11 : BitVec 11) (s : State) : Outcome :=
  whenTbit true (encodeWord (.blT1 S imm10 J1 J2 imm11)) s <|
    unlessMidITBlock (encodeWord (.blT1 S imm10 J1 J2 imm11)) s <|
      .next (s.operation (itCondition s.it) .t32 (imm32T1 S imm10 J1 J2 imm11)).advanceIT

/-- `BLX<c> <label>`, T2 (R67): UNDEFINED when `H = 1`, tested first. -/
def execBlxT2 (S : Bit) (imm10H : BitVec 10) (J1 J2 : Bit) (imm10L : BitVec 10) (H : Bit) (s : State) : Outcome :=
  whenTbit true (encodeWord (.blxT2 S imm10H J1 J2 imm10L H)) s <|
    if H = 1#1 then raiseUndefined (encodeWord (.blxT2 S imm10H J1 J2 imm10L H)) s
    else
      unlessMidITBlock (encodeWord (.blxT2 S imm10H J1 J2 imm10L H)) s <|
        .next (s.operation (itCondition s.it) .a32 (imm32T2 S imm10H J1 J2 imm10L)).advanceIT

end Sys2Proof.Machine
end

