-- ==== Sys2Proof/Machine/Dispatch.lean ====
section
/-! DEFINITION. One arm per constructor of Instr ("perform rule R64, R65, R66 or R67 for that row", R68). -/

namespace Sys2Proof.Machine

def exec (i : Instr) (s : State) : Host.Outcome State Fault Refusal :=
  match i with
  | .blA1 cond imm24 => Sys2Proof.Machine.execBlA1 cond imm24 s
  | .blxA2 H imm24 => Sys2Proof.Machine.execBlxA2 H imm24 s
  | .blT1 S imm10 J1 J2 imm11 => Sys2Proof.Machine.execBlT1 S imm10 J1 J2 imm11 s
  | .blxT2 S imm10H J1 J2 imm10L H => Sys2Proof.Machine.execBlxT2 S imm10H J1 J2 imm10L H s

end Sys2Proof.Machine
end

