-- ==== Sys2Proof/Machine/Step.lean ====
section
/-! DEFINITION. One step of the machine (R68): fetch and decode, then the meaning of the instruction. -/

namespace Sys2Proof.Machine

/-- One step (R68). Nothing is added around `exec`: the meanings move `pc` and advance `IT` themselves. -/
def step (s : State) : Host.Outcome State Fault Refusal :=
  match s.fetchInstr with
  | .ok i => exec i s
  | .error stop => stop.outcome

/-- `s` with a word of the opcode table stored where `step` fetches next (log 4). -/
def State.withFetchWord (s : State) (nbits w : Nat) : State := s.placeTableWord nbits w

end Sys2Proof.Machine
end

