-- ==== Sys2Proof/Machine/Assembler.lean ====
section
/-! DEFINITION. The assembler's and the disassembler's side of the page (R49 to R52): the base a label's offset is measured from,
the permitted offsets, the encoding an assembler selects for a label, and the label a disassembler prints. The mnemonics of the
conditions and what `<q>` asks for are the spec's own general knowledge (R50; log 18). -/

namespace Sys2Proof.Machine

/-- What an encoding's offset is measured from (R51): the PC value of the instruction, aligned for T2. -/
def labelBase (e : Encoding) (pc : Word) : Word :=
  match e with
  | .a1 => pc + Config.pcOffsetA32
  | .a2 => pc + Config.pcOffsetA32
  | .t1 => pc + Config.pcOffsetT32
  | .t2 => align4 (pc + Config.pcOffsetT32)

/-- The permitted offsets of an encoding (R51). -/
def permitsOffset (e : Encoding) (offset : Int) : Bool :=
  match e with
  | .a1 => offset % 4 == 0 && decide (-33554432 ≤ offset) && decide (offset ≤ 33554428)
  | .a2 => offset % 2 == 0 && decide (-33554432 ≤ offset) && decide (offset ≤ 33554430)
  | .t1 => offset % 2 == 0 && decide (-16777216 ≤ offset) && decide (offset ≤ 16777214)
  | .t2 => offset % 4 == 0 && decide (-16777216 ≤ offset) && decide (offset ≤ 16777212)

/-- The instruction of an encoding whose `imm32` is a permitted offset (R40 to R43 read backwards: `J1 = NOT(I1 EOR S)`). -/
def instrForOffset (e : Encoding) (cond : BitVec 4) (offset : Word) : Instr :=
  let S : Bit := offset.extractLsb' 24 1
  let J1 : Bit := iBit (offset.extractLsb' 23 1) S
  let J2 : Bit := iBit (offset.extractLsb' 22 1) S
  match e with
  | .a1 => .blA1 cond (offset.extractLsb' 2 24)
  | .a2 => .blxA2 (offset.extractLsb' 1 1) (offset.extractLsb' 2 24)
  | .t1 => .blT1 S (offset.extractLsb' 12 10) J1 J2 (offset.extractLsb' 1 11)
  | .t2 => .blxT2 S (offset.extractLsb' 12 10) J1 J2 (offset.extractLsb' 2 10) 0#1

/-- The assembler (R51): the instruction at `pc` whose label is `label`, where its offset is permitted. `cond` is used by A1
only, where it is encoded (R50). -/
def assemble (e : Encoding) (cond : BitVec 4) (pc label : Word) : Option Instr :=
  if permitsOffset e (label - labelBase e pc).toInt && (instrForOffset e cond (label - labelBase e pc)).wf then
    some (instrForOffset e cond (label - labelBase e pc))
  else none

/-- The label a disassembler prints: `base + imm32` (R51, R52). -/
def labelOf (i : Instr) (pc : Word) : Word := labelBase i.encoding pc + immOf i

/-- `<q>` (R50): `.N` demands a 16-bit encoding, `.W` a 32-bit one. -/
inductive Qualifier where
  | narrow
  | wide
  deriving DecidableEq, Repr

/-- A line `BL{<c>}{<q>} <label>` or `BLX{<c>}{<q>} <label>` with the encoding wanted of it (R49). -/
structure AsmLine where
  encoding : Encoding
  c : Option (BitVec 4)
  q : Option Qualifier
  label : Word
  deriving DecidableEq, Repr

/-- AL, which `<c>` defaults to (R50, R55). -/
def condAL : BitVec 4 := 0b1110#4

/-- A line assembled at `pc`, with the IT state it stands in (R50; log 18): `.N` cannot be satisfied; A1 encodes `<c>`; for A2
"`<c>` must be AL or omitted"; in T32 `<c>` must match the condition the IT state gives. -/
def assembleLine (line : AsmLine) (pc : Word) (it : BitVec 8) : Option Instr :=
  let cond := line.c.getD condAL
  if line.q = some .narrow then none
  else
    match line.encoding with
    | .a1 => assemble .a1 cond pc line.label
    | .a2 => if cond = condAL then assemble .a2 cond pc line.label else none
    | .t1 => if cond = itCondition it then assemble .t1 cond pc line.label else none
    | .t2 => if cond = itCondition it then assemble .t2 cond pc line.label else none

/-- "a disassembler prints A1 and T1 as `BL`, A2 and T2 as `BLX`" (R52). -/
def mnemonicOf : Encoding → String
  | .a1 => "BL"
  | .a2 => "BLX"
  | .t1 => "BL"
  | .t2 => "BLX"

/-- The condition mnemonics (R50, R55), HS and LO being second spellings of CS and CC. -/
def condNames : List (String × BitVec 4) :=
  [("EQ", 0b0000#4), ("NE", 0b0001#4), ("CS", 0b0010#4), ("HS", 0b0010#4), ("CC", 0b0011#4), ("LO", 0b0011#4),
   ("MI", 0b0100#4), ("PL", 0b0101#4), ("VS", 0b0110#4), ("VC", 0b0111#4), ("HI", 0b1000#4), ("LS", 0b1001#4),
   ("GE", 0b1010#4), ("LT", 0b1011#4), ("GT", 0b1100#4), ("LE", 0b1101#4), ("AL", 0b1110#4)]

/-- The condition a mnemonic names. -/
def condOfName (name : String) : Option (BitVec 4) := (condNames.find? (fun p => p.1 == name)).map (fun p => p.2)

/-- `<c>` as a disassembler prints it: nothing for a condition that always passes. -/
def condText (cond : BitVec 4) : String :=
  if cond = condAL || cond = condA2 then "" else ((condNames.find? (fun p => p.2 == cond)).map (fun p => p.1)).getD ""

/-- The mnemonic with its condition, and the label (R52). -/
def disassemble (i : Instr) (pc : Word) (it : BitVec 8) : String × Word :=
  (mnemonicOf i.encoding ++ condText (conditionOf i it), labelOf i pc)

end Sys2Proof.Machine
end

