-- ==== Sys2Proof/Safety.lean ====
section
/-! DEFINITION. What counts as a safe run: the states the spec gives a meaning (R21, R68), the invariant every step keeps, and the
run that sets the outcome mark and never clears it (spec/10_state.md, R11: a marked state is never final). -/

namespace Sys2Proof.Machine

/-- A legal state: `pc` aligned for `T` (R18(c)), `IT` legal under `T` (R21), P_PROGRAM in its canonical form, the outcome mark
clear (R90: "a premise of every claim"). -/
structure State.Inv (s : State) : Prop where
  aligned : pcAligned s.t s.pc = true
  legalIt : itLegal s.t s.it = true
  program : Memory.wf s.mem
  clear : s.mark = none

/-- The instruction is the one UNDEFINED encoding of the page, a T2 with `H = 1` (R45, R76). -/
def undefinedEncoding : Instr → Bool
  | .blA1 _ _ => false
  | .blxA2 _ _ => false
  | .blT1 _ _ _ _ _ => false
  | .blxT2 _ _ _ _ _ H => H == 1#1

/-- When an instruction executes to its end (R64 to R67): its instruction set is current, it is not UNDEFINED, and in T32 state it
is outside an IT block or last in one. Whether its condition holds does not matter. -/
def executes (i : Instr) (s : State) : Bool :=
  s.t == i.tbit && !undefinedEncoding i && !(i.tbit && midITBlock s.it)

/-- The condition of the instruction holds in the state (R55). -/
def passes (i : Instr) (s : State) : Bool := s.conditionPassed (conditionOf i s.it)

/-- One step of a run as a total function on states: a step without a next state changes the mark alone, and being stuck
changes nothing (R25). -/
def runStep (s : State) : State :=
  match step s with
  | .next s' => s'
  | .fault f => { s with mark := f.mark }
  | .refused r => { s with mark := r.mark }

/-- `k` steps of a run. -/
def runSteps : Nat → State → State
  | 0, s => s
  | k + 1, s => runSteps k (runStep s)

/-- A run is safe for `k` steps when each of them answers a next state: none faults, refuses or is stuck (R11). -/
def safeFor : Nat → State → Bool
  | 0, _ => true
  | k + 1, s =>
    match step s with
    | .next s' => safeFor k s'
    | .fault _ => false
    | .refused _ => false

end Sys2Proof.Machine
end

