-- ==== Sys2Proof/Certificates/Slice0/Obligations.lean ====
section
/-! DEFINITION. The statements for the provers. A statement whose docstring says "model's choice" or names the spec's own mark
(a decision D<n>, general knowledge G<n>, `[derived: ...]`) rests on more than an unmarked rule of spec/ and has basis
'derived' in OBLIGATIONS.json. -/

namespace Sys2Proof.Claim

open Sys2Proof.Machine

/-- An outcome whose next state, if it has one, is changed by `f`. -/
def mapNext (f : State → State) : Outcome → Outcome
  | .next s => .next (f s)
  | .fault why => .fault why
  | .refused why => .refused why

/-- The condition table of R55 written out by the value of `cc`, EQ to AL and then 1111. -/
def condTable (cc : BitVec 4) (s : State) : Bool :=
  match cc.toNat with
  | 0 => s.z
  | 1 => !s.z
  | 2 => s.c
  | 3 => !s.c
  | 4 => s.n
  | 5 => !s.n
  | 6 => s.v
  | 7 => !s.v
  | 8 => s.c && !s.z
  | 9 => !s.c || s.z
  | 10 => s.n == s.v
  | 11 => s.n != s.v
  | 12 => !s.z && s.n == s.v
  | 13 => s.z || s.n != s.v
  | _ => true

/-- `IT` lies outside an IT block, or the instruction is the last of one (R21): `IT[3:0]` is 0000 or 1000. -/
def itAdmits (it : BitVec 8) : Prop := it.extractLsb' 0 4 = 0b0000#4 ∨ it.extractLsb' 0 4 = 0b1000#4

/-- The condition field an assembler puts into an instruction: only A1 holds one. -/
def condField : Instr → BitVec 4
  | .blA1 cond _ => cond
  | .blxA2 _ _ => 0b1111#4
  | .blT1 _ _ _ _ _ => 0b1110#4
  | .blxT2 _ _ _ _ _ _ => 0b1110#4

/-- `s` holds the four bytes at its `pc`, lowest address first. -/
def bytesAtPc (s : State) (b0 b1 b2 b3 : Byte) : Prop :=
  s.fetchByte s.pc = some b0 ∧ s.fetchByte (s.pc + 1#32) = some b1 ∧ s.fetchByte (s.pc + 2#32) = some b2 ∧
    s.fetchByte (s.pc + 3#32) = some b3

/-- The state has the meaning R68 asks for: `pc` a multiple of 4 (A32) or 2 (T32), `IT` zero or, in T32 state, with
`IT[3:0]` not 0000. -/
def legal (s : State) : Prop :=
  s.pc.toNat % (if s.t then 2 else 4) = 0 ∧ (s.it = 0#8 ∨ (s.t = true ∧ s.it.extractLsb' 0 4 ≠ 0#4))

end Sys2Proof.Claim

open Sys2Proof Sys2Proof.Machine Sys2Proof.Claim

/-! ### Encoding and decoding -/

/-- Words written out bit by bit from the diagrams of R36 to R39 decode to the instructions they stand for, and words that match
no row are refused (the decoder vectors of spec/95_test_vectors.md). -/
def Obligations.WrittenOutWordsDecode : Prop :=
  decodeWord false 0b1110_101_1_000000000000000000000010#32 = .ok (.blA1 0b1110#4 2#24) ∧
  decodeWord false 0b1111_101_1_000000000000000000111110#32 = .ok (.blxA2 1#1 62#24) ∧
  decodeWord true 0b11110_0_0000000000_11_1_1_1_00010000000#32 = .ok (.blT1 0#1 0#10 1#1 1#1 0x080#11) ∧
  decodeWord true 0b11110_1_1111111111_11_1_0_1_1111000000_0#32 = .ok (.blxT2 1#1 0x3FF#10 1#1 1#1 0x3C0#10 0#1) ∧
  decodeWord false 0xEA000000#32 = .error (.noA32Row 0xEA000000#32) ∧
  decodeWord true 0xF000B800#32 = .error (.noT32Row 0xF000B800#32)

/-- R36. An A32 word is an A1 exactly when bits 27:24 are 1011 and `cond` is not 1111, and then `cond` is bits 31:28 and
`imm24` bits 23:0. -/
def Obligations.DecodeA1ReadsItsFields : Prop :=
  ∀ (w : Word) (cond : BitVec 4) (imm24 : BitVec 24),
    decodeWord false w = .ok (.blA1 cond imm24) ↔
      w.extractLsb' 28 4 = cond ∧ cond ≠ 0b1111#4 ∧ w.extractLsb' 25 3 = 0b101#3 ∧ w.extractLsb' 24 1 = 1#1 ∧
        w.extractLsb' 0 24 = imm24

/-- R37. An A32 word is an A2 exactly when bits 31:28 are 1111 and bits 27:25 are 101; `H` is bit 24 and `imm24` bits 23:0. -/
def Obligations.DecodeA2ReadsItsFields : Prop :=
  ∀ (w : Word) (H : Bit) (imm24 : BitVec 24),
    decodeWord false w = .ok (.blxA2 H imm24) ↔
      w.extractLsb' 28 4 = 0b1111#4 ∧ w.extractLsb' 25 3 = 0b101#3 ∧ w.extractLsb' 24 1 = H ∧ w.extractLsb' 0 24 = imm24

/-- R38. A T32 value `hw1 : hw2` is a T1 exactly when bits 31:27 are 11110, bits 15:14 are 11 and bit 12 is 1; the fields are
where R38 puts them. -/
def Obligations.DecodeT1ReadsItsFields : Prop :=
  ∀ (w : Word) (S : Bit) (imm10 : BitVec 10) (J1 J2 : Bit) (imm11 : BitVec 11),
    decodeWord true w = .ok (.blT1 S imm10 J1 J2 imm11) ↔
      w.extractLsb' 27 5 = 0b11110#5 ∧ w.extractLsb' 26 1 = S ∧ w.extractLsb' 16 10 = imm10 ∧ w.extractLsb' 14 2 = 0b11#2 ∧
        w.extractLsb' 13 1 = J1 ∧ w.extractLsb' 12 1 = 1#1 ∧ w.extractLsb' 11 1 = J2 ∧ w.extractLsb' 0 11 = imm11

/-- R39. A T32 value is a T2 exactly when bits 31:27 are 11110, bits 15:14 are 11 and bit 12 is 0, with any `H` in the diagram;
with `H = 1` it is UNDEFINED. -/
def Obligations.DecodeT2ReadsItsFields : Prop :=
  ∀ (S : Bit) (imm10H : BitVec 10) (J1 J2 : Bit) (imm10L : BitVec 10),
    (∀ (w : Word) (H : Bit),
      decodeWord true w = .ok (.blxT2 S imm10H J1 J2 imm10L H) ↔
        w.extractLsb' 27 5 = 0b11110#5 ∧ w.extractLsb' 26 1 = S ∧ w.extractLsb' 16 10 = imm10H ∧
          w.extractLsb' 14 2 = 0b11#2 ∧ w.extractLsb' 13 1 = J1 ∧ w.extractLsb' 12 1 = 0#1 ∧ w.extractLsb' 11 1 = J2 ∧
          w.extractLsb' 1 10 = imm10L ∧ w.extractLsb' 0 1 = H) ∧
    ∀ s : State, s.t = true → ∃ pc word, exec (.blxT2 S imm10H J1 J2 imm10L 1#1) s = .fault (.undefined pc word)

/-- The opcode map of R44: each row by its mask, its match and its further condition; the rows of one set are disjoint; in a run,
a fetched value that matches no row of its set is refused as `NotDescribed` (that refusal is the spec's decision D17). -/
def Obligations.OpcodeMapSelectsByMaskAndMatch : Prop :=
  (∀ w : Word,
    ((∃ i, decodeWord false w = .ok i ∧ i.encoding = .a1) ↔
      w &&& 0x0F000000#32 = 0x0B000000#32 ∧ w.extractLsb' 28 4 ≠ 0b1111#4) ∧
    ((∃ i, decodeWord false w = .ok i ∧ i.encoding = .a2) ↔ w &&& 0xFE000000#32 = 0xFA000000#32) ∧
    ((∃ i, decodeWord true w = .ok i ∧ i.encoding = .t1) ↔ w &&& 0xF800D000#32 = 0xF000D000#32) ∧
    ((∃ i, decodeWord true w = .ok i ∧ i.encoding = .t2) ↔ w &&& 0xF800D000#32 = 0xF000C000#32)) ∧
  ∀ (s : State) (w : Word), s.mark = none → legal s → s.fetchWord = .ok w → (∀ i, decodeWord s.t w ≠ .ok i) →
    step s = .refused (.notDescribed (.noRow w))

/-- R45. The UNDEFINED T2 words are those with `(w AND 0xF800D001) = 0xF000C001`, and executing one is UNDEFINED. -/
def Obligations.UndefinedWordsAreT2WithHSet : Prop :=
  ∀ w : Word,
    (w &&& 0xF800D001#32 = 0xF000C001#32 ↔
      ∃ S imm10H J1 J2 imm10L, decodeWord true w = .ok (.blxT2 S imm10H J1 J2 imm10L 1#1)) ∧
    ∀ (i : Instr) (s : State), w &&& 0xF800D001#32 = 0xF000C001#32 → decodeWord true w = .ok i → s.t = true →
      ∃ pc word, exec i s = .fault (.undefined pc word)

/-- R46. A word 1111 101H ... is the A2 with that `H`, not an A1; every other value of every field is an instruction that some
word decodes to. -/
def Obligations.OnlyCond1111IsReserved : Prop :=
  (∀ w : Word, w.extractLsb' 25 7 = 0b1111101#7 →
    decodeWord false w = .ok (.blxA2 (w.extractLsb' 24 1) (w.extractLsb' 0 24))) ∧
  ∀ i : Instr, (∀ cond imm24, i = .blA1 cond imm24 → cond ≠ 0b1111#4) → ∃ w, decodeWord i.tbit w = .ok i

/-- Decoding the bytes of a well-formed instruction, whatever follows them, gives it back and leaves what follows. The byte order
is the spec's decision D6. -/
def Obligations.DecodeOfEncodeIsTheInstruction : Prop :=
  ∀ (i : Instr) (rest : List Byte), i.wf = true → decodeBytes i.tbit (encode i ++ rest) = .ok (i, rest)

/-- A value that decodes is the encoding of the instruction it decodes to, which is well-formed and of the set it was read in: each
word has one meaning and no bit of it is dropped. -/
def Obligations.EncodeOfDecodeIsTheWord : Prop :=
  ∀ (t : Bool) (w : Word) (i : Instr), decodeWord t w = .ok i → i.wf = true ∧ i.tbit = t ∧ encodeWord i = w

/-- No 32-bit value is an instruction of this page in both instruction sets (from the masks of R44). -/
def Obligations.NoWordIsAnInstructionInBothSets : Prop :=
  ∀ (w : Word) (i : Instr), decodeWord false w = .ok i → ∃ why, decodeWord true w = .error why

/-- The length rule of R48 (general knowledge G18) agrees with the opcode map: the first halfword of a T1 or T2 starts a 32-bit
instruction. -/
def Obligations.T32InstructionStartsWide : Prop :=
  ∀ (b0 b1 b2 b3 : Byte) (i : Instr) (rest : List Byte),
    decodeBytes true (b0 :: b1 :: b2 :: b3 :: rest) = .ok (i, rest) → isWideT32 (b1 ++ b0) = true

/-! ### Immediates -/

/-- R40. A1's `imm32`: the sign-extended string, its values (every multiple of 4 in the range D00 states), its ends, its target
set. -/
def Obligations.ImmediateA1HasItsRange : Prop :=
  (∀ cond imm24, immOf (.blA1 cond imm24) = (imm24 ++ 0b00#2).signExtend 32) ∧
  (∀ k : Int, (∃ imm24, (imm32A1 imm24).toInt = k) ↔ k % 4 = 0 ∧ -33554432 ≤ k ∧ k ≤ 33554428) ∧
  imm32A1 0x800000#24 = 0xFE000000#32 ∧ imm32A1 0x7FFFFF#24 = 0x01FFFFFC#32 ∧ targetSetOf .a1 = .a32

/-- R41. A2's `imm32`: the same with `H`, every even number in the range. -/
def Obligations.ImmediateA2HasItsRange : Prop :=
  (∀ H imm24, immOf (.blxA2 H imm24) = (imm24 ++ H ++ 0#1).signExtend 32) ∧
  (∀ k : Int, (∃ H imm24, (imm32A2 H imm24).toInt = k) ↔ k % 2 = 0 ∧ -33554432 ≤ k ∧ k ≤ 33554430) ∧
  (imm32A2 0#1 0x800000#24).toInt = -33554432 ∧ imm32A2 1#1 0x7FFFFF#24 = 0x01FFFFFE#32 ∧ targetSetOf .a2 = .t32

/-- R42. T1's `imm32`: `I1` and `I2` from `J1`, `J2` and `S`, every even number in the range, its ends, and the words of offset
zero. -/
def Obligations.ImmediateT1HasItsRange : Prop :=
  (∀ S imm10 J1 J2 imm11, immOf (.blT1 S imm10 J1 J2 imm11) =
    (S ++ ~~~(J1 ^^^ S) ++ ~~~(J2 ^^^ S) ++ imm10 ++ imm11 ++ 0#1).signExtend 32) ∧
  (∀ J S : Bit, iBit J S = 1#1 ↔ J = S) ∧
  (∀ k : Int, (∃ S imm10 J1 J2 imm11, (imm32T1 S imm10 J1 J2 imm11).toInt = k) ↔
    k % 2 = 0 ∧ -16777216 ≤ k ∧ k ≤ 16777214) ∧
  (imm32T1 1#1 0#10 0#1 0#1 0#11).toInt = -16777216 ∧ (imm32T1 0#1 0x3FF#10 0#1 0#1 0x7FF#11).toInt = 16777214 ∧
  targetSetOf .t1 = .t32 ∧ imm32T1 0#1 0#10 1#1 1#1 0#11 = 0#32 ∧ encodeWord (.blT1 0#1 0#10 1#1 1#1 0#11) = 0xF000F800#32

/-- R43. T2's `imm32`: every multiple of 4 in the range; the `H == '1'` test comes before it. -/
def Obligations.ImmediateT2HasItsRange : Prop :=
  (∀ S imm10H J1 J2 imm10L H, immOf (.blxT2 S imm10H J1 J2 imm10L H) =
    (S ++ ~~~(J1 ^^^ S) ++ ~~~(J2 ^^^ S) ++ imm10H ++ imm10L ++ 0b00#2).signExtend 32) ∧
  (∀ k : Int, (∃ S imm10H J1 J2 imm10L, (imm32T2 S imm10H J1 J2 imm10L).toInt = k) ↔
    k % 4 = 0 ∧ -16777216 ≤ k ∧ k ≤ 16777212) ∧
  targetSetOf .t2 = .a32 ∧
  ∀ S imm10H J1 J2 imm10L (s : State), s.t = true →
    ∃ pc word, exec (.blxT2 S imm10H J1 J2 imm10L 1#1) s = .fault (.undefined pc word)

/-! ### What the instructions do -/

/-- R69. The Operation, in D00's own terms: an instruction that is neither UNDEFINED nor UNPREDICTABLE in the state answers a next
state; when its condition passed, LR depends on the current set, the target's alignment on the target set, and both are
computed from the `PC` read before the set changes; when it did not, the body does nothing to LR and `T`. -/
def Obligations.OperationLinksAndBranches : Prop :=
  ∀ (i : Instr) (s : State), executes i s = true →
    ∃ s', exec i s = .next s' ∧
      (passes i s = true →
        s'.lr = (if s.t then s.pcRead.extractLsb' 1 31 ++ 1#1 else s.pcRead - 4#32) ∧
        s'.t = decide (targetSetOf i.encoding = .t32) ∧
        s'.pc = (if targetSetOf i.encoding = .a32 then align4 (align4 s.pcRead + immOf i) else align2 (s.pcRead + immOf i))) ∧
      (passes i s = false → s'.lr = s.lr ∧ s'.t = s.t)

/-- The whole effect of A1 (the Effect block of the encoding, `[derived]` in the spec; D1, D2, D23): the state after it, field by
field, when its condition passes and when it fails. -/
def Obligations.BlA1Result : Prop :=
  ∀ (cond : BitVec 4) (imm24 : BitVec 24) (s : State), s.t = false → s.pc.toNat % 4 = 0 →
    exec (.blA1 cond imm24) s =
      .next (if conditionHolds cond s.n s.z s.c s.v then
        { s with regs := s.regs.set 14 (s.pc + 4#32), pc := s.pc + 8#32 + (imm24 ++ 0b00#2).signExtend 32 }
      else { s with pc := s.pc + 4#32 })

/-- The whole effect of A2 (`[derived]`; D1, D2): always taken, `T` becomes 1. -/
def Obligations.BlxA2Result : Prop :=
  ∀ (H : Bit) (imm24 : BitVec 24) (s : State), s.t = false → s.pc.toNat % 4 = 0 →
    exec (.blxA2 H imm24) s =
      .next { s with
        regs := s.regs.set 14 (s.pc + 4#32)
        pc := s.pc + 8#32 + (imm24 ++ H ++ 0#1).signExtend 32
        t := true }

/-- The whole effect of T1 outside an IT block or last in one (`[derived]`; D1, D2, D16, D18, D23): LR is `(pc + 4) OR 1`,
`IT` becomes zero. -/
def Obligations.BlT1Result : Prop :=
  ∀ (S : Bit) (imm10 : BitVec 10) (J1 J2 : Bit) (imm11 : BitVec 11) (s : State),
    s.t = true → s.pc.toNat % 2 = 0 → itAdmits s.it →
    exec (.blT1 S imm10 J1 J2 imm11) s =
      .next (if conditionHolds (if s.it.extractLsb' 0 4 = 0#4 then 0b1110#4 else s.it.extractLsb' 4 4) s.n s.z s.c s.v then
        { s with
          regs := s.regs.set 14 ((s.pc + 4#32) ||| 1#32)
          pc := s.pc + 4#32 + (S ++ ~~~(J1 ^^^ S) ++ ~~~(J2 ^^^ S) ++ imm10 ++ imm11 ++ 0#1).signExtend 32
          it := 0#8 }
      else { s with pc := s.pc + 4#32, it := 0#8 })

/-- The whole effect of T2 with `H = 0` outside an IT block or last in one (`[derived]`; D1, D2, D16, D18, D23): `T` becomes 0
when taken, the target is measured from the aligned PC. -/
def Obligations.BlxT2Result : Prop :=
  ∀ (S : Bit) (imm10H : BitVec 10) (J1 J2 : Bit) (imm10L : BitVec 10) (s : State),
    s.t = true → s.pc.toNat % 2 = 0 → itAdmits s.it →
    exec (.blxT2 S imm10H J1 J2 imm10L 0#1) s =
      .next (if conditionHolds (if s.it.extractLsb' 0 4 = 0#4 then 0b1110#4 else s.it.extractLsb' 4 4) s.n s.z s.c s.v then
        { s with
          regs := s.regs.set 14 ((s.pc + 4#32) ||| 1#32)
          pc := ((s.pc + 4#32) &&& 0xFFFFFFFC#32) + (S ++ ~~~(J1 ^^^ S) ++ ~~~(J2 ^^^ S) ++ imm10H ++ imm10L ++ 0b00#2).signExtend 32
          t := false
          it := 0#8 }
      else { s with pc := s.pc + 4#32, it := 0#8 })

/-- The condition table (general knowledge G2, D3), told by what a conditional A1 does: for each `cond` and every value of the
flags it links exactly when the table's test holds. -/
def Obligations.ConditionalA1FollowsTheTable : Prop :=
  ∀ (cond : BitVec 4) (imm24 : BitVec 24) (s : State), s.t = false →
    ∃ s', exec (.blA1 cond imm24) s = .next s' ∧
      (condTable cond s = true → s'.lr = s.pcRead - 4#32 ∧ s'.pc = align4 (align4 s.pcRead + immOf (.blA1 cond imm24))) ∧
      (condTable cond s = false → s'.lr = s.lr ∧ s'.pc = s.pc + 4#32)

/-- The source of the condition in T32 state (G2): outside an IT block T1 and T2 always link, last in one they link exactly when
the table's test of `IT[7:4]` holds. -/
def Obligations.T32ConditionComesFromIT : Prop :=
  ∀ (i : Instr) (s : State), i.tbit = true → undefinedEncoding i = false → s.t = true → itAdmits s.it →
    ∃ s', exec i s = .next s' ∧
      (s.it.extractLsb' 0 4 = 0#4 → s'.lr = s.linkValue) ∧
      (s.it.extractLsb' 0 4 = 0b1000#4 → s'.lr = if condTable (s.it.extractLsb' 4 4) s then s.linkValue else s.lr)

/-- UNDEFINED: exactly a T2 with `H = 1` in T32 state faults, whatever `IT` and the flags (so before UNPREDICTABLE and before the
condition), recording `pc` and the 32 bits; no instruction faults otherwise (D5). -/
def Obligations.FaultsExactlyWhenUndefined : Prop :=
  ∀ (i : Instr) (s : State) (f : Fault),
    exec i s = .fault f ↔ s.t = true ∧ undefinedEncoding i = true ∧ f = .undefined s.pc (encodeWord i)

/-- UNPREDICTABLE: exactly T1, and T2 with `H = 0`, in T32 state with `IT[3:0]` neither 0000 nor 1000 are refused so, whatever
the condition (D4, D18). -/
def Obligations.UnpredictableExactlyMidITBlock : Prop :=
  ∀ (i : Instr) (s : State) (word : Word),
    exec i s = .refused (.unpredictable word) ↔
      s.t = true ∧ i.tbit = true ∧ undefinedEncoding i = false ∧ ¬ itAdmits s.it ∧ word = encodeWord i

/-- When an instruction executes to a next state, and what it answers otherwise: every instruction of the current set does, but for
the two stops above; an instruction of the other set is refused (the model's choice, log 10: no step meets one). -/
def Obligations.ExecAnswersNextExactlyWhenItExecutes : Prop :=
  ∀ (i : Instr) (s : State),
    ((∃ s', exec i s = .next s') ↔
      s.t = i.tbit ∧ undefinedEncoding i = false ∧ (i.tbit = true → itAdmits s.it)) ∧
    (s.t ≠ i.tbit → exec i s = .refused (.notDescribed (.otherInstrSet (encodeWord i))))

/-- A failed condition (D23; no effect of the Operation): only `pc` moves, by 4, and in T32 state `IT` becomes zero (D16). -/
def Obligations.FailedConditionMovesPcOnly : Prop :=
  ∀ (i : Instr) (s : State), executes i s = true → passes i s = false →
    exec i s = .next { s with pc := s.pc + 4#32, it := if s.t then 0#8 else s.it }

/-- A BLX that is taken changes the instruction set; a BL, and a BLX whose condition failed, does not. -/
def Obligations.ExchangeExactlyOnTakenBlx : Prop :=
  ∀ (i : Instr) (s : State), executes i s = true →
    ∃ s', exec i s = .next s' ∧
      (s'.t ≠ s.t ↔ passes i s = true ∧ (i.encoding = .a2 ∨ i.encoding = .t2))

/-- The link value (D1, D2, `[derived]`): from an aligned `pc`, a taken call leaves in LR the address of the next instruction with
bit 0 telling the caller's instruction set. -/
def Obligations.LinkValueIsReturnAddressAndSet : Prop :=
  ∀ (i : Instr) (s : State), executes i s = true → passes i s = true → pcAligned s.t s.pc = true →
    ∃ s', exec i s = .next s' ∧ s'.lr.getLsbD 0 = s.t ∧ s'.lr &&& 0xFFFFFFFE#32 = s.pc + 4#32

/-- From an aligned `pc` the target is already aligned for the target set, so `BranchWritePC` forces nothing (`[derived]`), and
the new `pc` is aligned for the new `T`. -/
def Obligations.TargetIsAlreadyAligned : Prop :=
  ∀ (i : Instr) (s : State), executes i s = true → passes i s = true → pcAligned s.t s.pc = true →
    ∃ s', exec i s = .next s' ∧ s'.pc = s.targetAddress (targetSetOf i.encoding) (immOf i) ∧ pcAligned s'.t s'.pc = true

/-- A T2 reaches the same target from a word-aligned address and from the halfword after it (a corner case of the encoding, by
`Align(PC, 4)`). -/
def Obligations.T2TargetIgnoresTheHalfword : Prop :=
  ∀ (i : Instr) (s : State), i.encoding = .t2 → executes i s = true → passes i s = true → s.pc.toNat % 4 = 0 →
    ∃ s1 s2, exec i s = .next s1 ∧ exec i { s with pc := s.pc + 2#32 } = .next s2 ∧ s1.pc = s2.pc ∧ s2.lr = s1.lr + 2#32

/-! ### Frames -/

/-- The frame of all four instructions: every register but LR, every flag, P_PROGRAM byte by byte, the mark; LR when the condition
failed; `T` but for a taken BLX; `IT` in A32 state. -/
def Obligations.ExecFrame : Prop :=
  ∀ (i : Instr) (s s' : State), exec i s = .next s' →
    (∀ j : Fin 15, j ≠ 14 → s'.reg j = s.reg j) ∧
    (passes i s = false → s'.lr = s.lr) ∧
    s'.n = s.n ∧ s'.z = s.z ∧ s'.c = s.c ∧ s'.v = s.v ∧
    (∀ a : Word, s'.fetchByte a = s.fetchByte a) ∧ s'.mark = s.mark ∧
    (i.encoding = .a1 ∨ i.encoding = .t1 ∨ passes i s = false → s'.t = s.t) ∧
    (s.t = false → s'.it = s.it)

/-- R29. No memory read and no memory write: an instruction does the same over any memory and leaves it as it is, and the return
address goes to LR only. -/
def Obligations.ExecNeitherReadsNorWritesMemory : Prop :=
  ∀ (i : Instr) (s : State) (m : Memory),
    exec i { s with mem := m } = mapNext (fun s' => { s' with mem := m }) (exec i s) ∧
    ∀ s', exec i s = .next s' → s'.mem = s.mem ∧ ∀ j : Fin 15, j ≠ 14 → s'.reg j = s.reg j

/-- No general register is read: whatever R0 to R14 hold, the instruction does the same to every other field, and of the registers
it writes LR alone, with the same value, when its condition passed. -/
def Obligations.ExecReadsNoRegister : Prop :=
  ∀ (i : Instr) (s : State) (r : Vector Word 15),
    exec i { s with regs := r } =
      mapNext (fun s' => { s' with regs := if passes i s then r.set 14 s'.lr else r }) (exec i s)

/-- A2, and T1 and T2 outside an IT block, do not depend on the flags. -/
def Obligations.UnconditionalCallsIgnoreTheFlags : Prop :=
  ∀ (i : Instr) (s : State) (n z c v : Bool), (i.encoding = .a2 ∨ (i.tbit = true ∧ s.it = 0#8)) →
    exec i { s with n := n, z := z, c := c, v := v } =
      mapNext (fun s' => { s' with n := n, z := z, c := c, v := v }) (exec i s)

/-! ### The step -/

/-- A step runs the decoded instruction and adds nothing around it: in a legal state with a clear mark, when the four bytes at
`pc` decode to `i`, the step is `exec i`. -/
def Obligations.StepRunsTheDecodedInstruction : Prop :=
  ∀ (s : State) (b0 b1 b2 b3 : Byte) (i : Instr), s.mark = none → legal s → bytesAtPc s b0 b1 b2 b3 →
    decodeBytes s.t [b0, b1, b2, b3] = .ok (i, []) → step s = exec i s

/-- The states the step refuses before it fetches (D7, and the legal values of `IT`, G6): a misaligned `pc` first, then an illegal
`IT`. -/
def Obligations.StepRefusesIllegalStates : Prop :=
  ∀ s : State, s.mark = none → ¬ legal s →
    step s = .refused (.notDescribed
      (if s.pc.toNat % (if s.t then 2 else 4) = 0 then .illegalIt s.it else .misalignedPc s.pc))

/-- An address P_PROGRAM does not cover: the step is stuck at the lowest of the four addresses with no byte (D11; which address is
named is the model's choice, log 13). -/
def Obligations.StepIsStuckWithoutAByte : Prop :=
  ∀ (s : State) (k : Nat), s.mark = none → legal s → k < 4 →
    (∀ j < k, s.fetchByte (s.pc + BitVec.ofNat 32 j) ≠ none) → s.fetchByte (s.pc + BitVec.ofNat 32 k) = none →
    step s = .fault (.stuck (s.pc + BitVec.ofNat 32 k))

/-- A well-formed instruction placed at `pc` is what the next step runs (the model's own loader, log 4). -/
def Obligations.PlacedInstructionIsWhatStepRuns : Prop :=
  ∀ (i : Instr) (s : State), i.wf = true → s.mark = none → pcAligned i.tbit s.pc = true →
    (i.tbit = true → itLegal true s.it = true) →
    step (s.withFetchWord 32 (encodeWord i).toNat) = exec i (s.withFetchWord 32 (encodeWord i).toNat)

/-! ### Invariants and runs -/

/-- From every legal state with a clear mark and a program in canonical form, a step that answers a next state answers another. -/
def Obligations.StepKeepsTheStateLegal : Prop :=
  ∀ s s' : State, s.Inv → step s = .next s' → s'.Inv

/-- The state after reset (the model's choice, log 2) meets the invariant, and with no program loaded its first step is stuck. -/
def Obligations.ResetStateIsLegal : Prop :=
  State.reset.Inv ∧ step State.reset = .fault (.stuck 0#32)

/-- After every step that answers a next state, `IT` is zero: no instruction of the page opens an IT block, and T1 and T2 end one
(D16). -/
def Obligations.StepLeavesITZero : Prop :=
  ∀ s s' : State, step s = .next s' → s'.it = 0#8

/-- Whatever a run executes, R0 to R13, the flags and P_PROGRAM stay as they were at its start, and from a legal state with a clear
mark `pc` and `IT` stay legal. -/
def Obligations.RunKeepsRegistersFlagsAndProgram : Prop :=
  ∀ (k : Nat) (s : State),
    (∀ j : Fin 15, j ≠ 14 → (runSteps k s).reg j = s.reg j) ∧
    (runSteps k s).n = s.n ∧ (runSteps k s).z = s.z ∧ (runSteps k s).c = s.c ∧ (runSteps k s).v = s.v ∧
    (runSteps k s).mem = s.mem ∧
    (pcAligned s.t s.pc = true ∧ itLegal s.t s.it = true →
      pcAligned (runSteps k s).t (runSteps k s).pc = true ∧ itLegal (runSteps k s).t (runSteps k s).it = true)

/-- The outcome mark is never cleared (the table at the head of spec/10_state.md; as a field, the model's choice, log 6): a marked
state answers its stop again, is never final, and no run leaves it. -/
def Obligations.MarkIsNeverCleared : Prop :=
  ∀ (s : State) (m : Mark), s.mark = some m →
    step s = m.stop.outcome ∧ (∀ k, runSteps k s = s) ∧ ∀ k, safeFor (k + 1) s = false

/-- A step without a next state writes nothing but the mark (log 6), which it sets exactly for `Undefined`, `Unpredictable` and
`NotDescribed`; being stuck sets none. -/
def Obligations.StopsWriteTheMarkOnly : Prop :=
  ∀ s : State, s.mark = none → (∀ s', step s ≠ .next s') →
    ∃ m, runStep s = { s with mark := m } ∧
      (∀ pc word, m = some (.undefined pc word) ↔ step s = .fault (.undefined pc word)) ∧
      (∀ word, m = some (.unpredictable word) ↔ step s = .refused (.unpredictable word)) ∧
      (∀ why, m = some (.notDescribed why) ↔ step s = .refused (.notDescribed why)) ∧
      (m = none ↔ ∃ addr, step s = .fault (.stuck addr))

/-! ### The assembler's side -/

/-- What the assembler selects for a label reaches it: the instruction is well-formed, of the encoding asked for, prints as that
label again, and from a legal `pc` a taken call of it goes to the label (the base of the offset rests on D1). -/
def Obligations.AssembledCallReachesItsLabel : Prop :=
  ∀ (e : Encoding) (cond : BitVec 4) (s : State) (label : Word) (i : Instr),
    assemble e cond s.pc label = some i →
    i.wf = true ∧ i.encoding = e ∧ labelOf i s.pc = label ∧
    (executes i s = true → passes i s = true → pcAligned s.t s.pc = true →
      ∃ s', exec i s = .next s' ∧ s'.pc = label)

/-- Assembling the label a disassembler prints gives the instruction back, for every well-formed instruction that is not UNDEFINED:
every offset an encoding holds is a permitted one. -/
def Obligations.AssembleOfDisassembleIsTheInstruction : Prop :=
  ∀ (i : Instr) (pc : Word), i.wf = true → undefinedEncoding i = false →
    assemble i.encoding (condField i) pc (labelOf i pc) = some i
end

