-- ==== Sys2Proof/Laws/Bits.lean ====
section
/-! SUPPORT. Addresses as numbers: what aligning clears, and that every `imm32` is a multiple of 2 or of 4. -/

namespace Sys2Proof.Machine

/-- Concatenation as arithmetic. -/
theorem append_toNat {w n : Nat} (x : BitVec w) (y : BitVec n) : (x ++ y).toNat = x.toNat * 2 ^ n + y.toNat := by
  rw [BitVec.toNat_append, ← Nat.shiftLeft_add_eq_or_of_lt y.isLt, Nat.shiftLeft_eq]

theorem align4_toNat (x : Word) : (align4 x).toNat = x.toNat / 4 * 4 := by
  have h := append_toNat (x.extractLsb' 2 30) 0b00#2
  have hx := x.isLt
  rw [BitVec.extractLsb'_toNat, Nat.shiftRight_eq_div_pow] at h
  refine h.trans ?_
  simp
  omega

theorem align2_toNat (x : Word) : (align2 x).toNat = x.toNat / 2 * 2 := by
  have h := append_toNat (x.extractLsb' 1 31) 0#1
  have hx := x.isLt
  rw [BitVec.extractLsb'_toNat, Nat.shiftRight_eq_div_pow] at h
  refine h.trans ?_
  simp
  omega

theorem align4_of_mod {x : Word} (h : x.toNat % 4 = 0) : align4 x = x :=
  BitVec.eq_of_toNat_eq (by rw [align4_toNat]; omega)

theorem align2_of_mod {x : Word} (h : x.toNat % 2 = 0) : align2 x = x :=
  BitVec.eq_of_toNat_eq (by rw [align2_toNat]; omega)

theorem align4_mod (x : Word) : (align4 x).toNat % 4 = 0 := by rw [align4_toNat]; omega

theorem align2_mod (x : Word) : (align2 x).toNat % 2 = 0 := by rw [align2_toNat]; omega

/-- R18(c) in numbers. -/
theorem pcAligned_iff (t : Bool) (pc : Word) : pcAligned t pc = true ↔ pc.toNat % (if t then 2 else 4) = 0 := by
  cases t <;> simp [pcAligned, BitVec.toNat_eq]

theorem pcAligned_a32 {pc : Word} : pcAligned false pc = true ↔ pc.toNat % 4 = 0 := by simpa using pcAligned_iff false pc

theorem pcAligned_t32 {pc : Word} : pcAligned true pc = true ↔ pc.toNat % 2 = 0 := by simpa using pcAligned_iff true pc

/-- A sign extension to 32 bits keeps what the low bits say of divisibility. -/
theorem signExtend_toNat_mod {w : Nat} (x : BitVec w) (k : Nat) (hk : k ∣ 2 ^ w) (hw : w ≤ 32) :
    (x.signExtend 32).toNat % k = x.toNat % k := by
  obtain ⟨q, hq⟩ := hk
  have hpow : 2 ^ 32 = 2 ^ w * 2 ^ (32 - w) := by rw [← Nat.pow_add]; congr 1; omega
  have hx : x.toNat < 2 ^ 32 := Nat.lt_of_lt_of_le x.isLt (Nat.pow_le_pow_right (by omega) hw)
  rw [BitVec.toNat_signExtend, BitVec.toNat_setWidth, Nat.mod_eq_of_lt hx]
  split
  · have : 2 ^ 32 - 2 ^ w = k * (q * (2 ^ (32 - w) - 1)) := by
      rw [hpow, hq, ← Nat.mul_assoc, Nat.mul_sub, Nat.mul_one]
    rw [this, Nat.add_mul_mod_self_left]
  · rfl

theorem append_zeros_mod {w n : Nat} (x : BitVec w) : (x ++ 0#n).toNat % 2 ^ n = 0 := by
  rw [append_toNat]
  simp

theorem imm32A1_mod (imm24 : BitVec 24) : (imm32A1 imm24).toNat % 4 = 0 := by
  rw [imm32A1, signExtend_toNat_mod _ 4 (by decide) (by decide)]
  exact append_zeros_mod (n := 2) imm24

theorem imm32A2_mod (H : Bit) (imm24 : BitVec 24) : (imm32A2 H imm24).toNat % 2 = 0 := by
  rw [imm32A2, signExtend_toNat_mod _ 2 (by decide) (by decide)]
  exact append_zeros_mod (n := 1) _

theorem imm32T1_mod (S : Bit) (imm10 : BitVec 10) (J1 J2 : Bit) (imm11 : BitVec 11) :
    (imm32T1 S imm10 J1 J2 imm11).toNat % 2 = 0 := by
  rw [imm32T1, signExtend_toNat_mod _ 2 (by decide) (by decide)]
  exact append_zeros_mod (n := 1) _

theorem imm32T2_mod (S : Bit) (imm10H : BitVec 10) (J1 J2 : Bit) (imm10L : BitVec 10) :
    (imm32T2 S imm10H J1 J2 imm10L).toNat % 4 = 0 := by
  rw [imm32T2, signExtend_toNat_mod _ 4 (by decide) (by decide)]
  exact append_zeros_mod (n := 2) _

/-- Every `imm32` is a multiple of the target set's instruction alignment (R40 to R43). -/
theorem immOf_mod (i : Instr) : (immOf i).toNat % (if targetSetOf i.encoding = .a32 then 4 else 2) = 0 := by
  cases i with
  | blA1 _ imm24 => exact imm32A1_mod imm24
  | blxA2 H imm24 => exact imm32A2_mod H imm24
  | blT1 S imm10 J1 J2 imm11 => exact imm32T1_mod S imm10 J1 J2 imm11
  | blxT2 S imm10H J1 J2 imm10L _ => exact imm32T2_mod S imm10H J1 J2 imm10L

end Sys2Proof.Machine
end

