-- ==== Sys2Proof/Laws/Encoding.lean ====
section
/-! SUPPORT. The encodings as numbers: each instruction's value `w`, each row's test, and each field, so that facts about the
decoder become linear arithmetic. -/

namespace Sys2Proof

open Sys2Proof.Machine (append_toNat)

/-- A field as a number: bits `lo` up, `len` of them. -/
theorem field_toNat (w : Word) (lo len : Nat) : (w.extractLsb' lo len).toNat = w.toNat / 2 ^ lo % 2 ^ len := by
  rw [BitVec.extractLsb'_toNat, Nat.shiftRight_eq_div_pow]

/-! ### The values of the diagrams (R36 to R39) -/

theorem encodeWord_blA1_toNat (cond : BitVec 4) (imm24 : BitVec 24) :
    (encodeWord (.blA1 cond imm24)).toNat = cond.toNat * 2 ^ 28 + 11 * 2 ^ 24 + imm24.toNat := by
  refine (append_toNat (cond ++ 0b101#3 ++ 1#1) imm24).trans ?_
  simp only [append_toNat]
  simp
  omega

theorem encodeWord_blxA2_toNat (H : Bit) (imm24 : BitVec 24) :
    (encodeWord (.blxA2 H imm24)).toNat = 125 * 2 ^ 25 + H.toNat * 2 ^ 24 + imm24.toNat := by
  refine (append_toNat (0b1111#4 ++ 0b101#3 ++ H) imm24).trans ?_
  simp only [append_toNat]
  simp
  omega

theorem encodeWord_blT1_toNat (S : Bit) (imm10 : BitVec 10) (J1 J2 : Bit) (imm11 : BitVec 11) :
    (encodeWord (.blT1 S imm10 J1 J2 imm11)).toNat =
      30 * 2 ^ 27 + S.toNat * 2 ^ 26 + imm10.toNat * 2 ^ 16 + 3 * 2 ^ 14 + J1.toNat * 2 ^ 13 + 2 ^ 12 + J2.toNat * 2 ^ 11
        + imm11.toNat := by
  refine (append_toNat (0b11110#5 ++ S ++ imm10 ++ 0b11#2 ++ J1 ++ 1#1 ++ J2) imm11).trans ?_
  simp only [append_toNat]
  simp
  omega

theorem encodeWord_blxT2_toNat (S : Bit) (imm10H : BitVec 10) (J1 J2 : Bit) (imm10L : BitVec 10) (H : Bit) :
    (encodeWord (.blxT2 S imm10H J1 J2 imm10L H)).toNat =
      30 * 2 ^ 27 + S.toNat * 2 ^ 26 + imm10H.toNat * 2 ^ 16 + 3 * 2 ^ 14 + J1.toNat * 2 ^ 13 + J2.toNat * 2 ^ 11
        + imm10L.toNat * 2 + H.toNat := by
  refine (append_toNat (0b11110#5 ++ S ++ imm10H ++ 0b11#2 ++ J1 ++ 0#1 ++ J2 ++ imm10L) H).trans ?_
  simp only [append_toNat]
  simp
  omega

/-! ### The rows' tests (R44) -/

/-- One field under a mask: a mask of `len` ones at `lo`. -/
theorem and_mask_toNat (a lo len : Nat) : a &&& ((2 ^ len - 1) * 2 ^ lo) = a / 2 ^ lo % 2 ^ len * 2 ^ lo := by
  rw [← Nat.shiftLeft_eq, ← Nat.shiftLeft_eq, ← Nat.and_two_pow_sub_one_eq_mod, ← Nat.shiftRight_eq_div_pow]
  apply Nat.eq_of_testBit_eq
  intro i
  simp only [Nat.testBit_and, Nat.testBit_shiftLeft, Nat.testBit_shiftRight]
  by_cases h : lo ≤ i
  · simp [h, Nat.add_sub_cancel' h]
  · simp [h]

/-- A1's mask and match as a field test. -/
theorem matches_a1 (w : Word) : w &&& 0x0F000000#32 = 0x0B000000#32 ↔ w.toNat / 2 ^ 24 % 2 ^ 4 = 11 := by
  have h := and_mask_toNat w.toNat 24 4
  rw [← BitVec.toNat_inj, BitVec.toNat_and]
  simp at h ⊢
  omega

/-- A2's mask and match as a field test. -/
theorem matches_a2 (w : Word) : w &&& 0xFE000000#32 = 0xFA000000#32 ↔ w.toNat / 2 ^ 25 = 125 := by
  have h := and_mask_toNat w.toNat 25 7
  have hw := w.isLt
  rw [← BitVec.toNat_inj, BitVec.toNat_and]
  simp at h ⊢
  omega

/-- The mask that T1 and T2 share, as three fields. -/
theorem and_maskT (a : Nat) (ha : a < 2 ^ 32) :
    a &&& 0xF800D000 = a / 2 ^ 27 * 2 ^ 27 + a / 2 ^ 14 % 2 ^ 2 * 2 ^ 14 + a / 2 ^ 12 % 2 * 2 ^ 12 := by
  have e : 0xF800D000 = ((2 ^ 5 - 1) * 2 ^ 27 ||| (2 ^ 2 - 1) * 2 ^ 14) ||| (2 ^ 1 - 1) * 2 ^ 12 := by decide
  rw [e, Nat.and_or_distrib_left, Nat.and_or_distrib_left, and_mask_toNat, and_mask_toNat, and_mask_toNat]
  have hi : a / 2 ^ 27 % 2 ^ 5 = a / 2 ^ 27 := Nat.mod_eq_of_lt (by omega)
  rw [hi, ← Nat.shiftLeft_eq (a / 2 ^ 27), ← Nat.shiftLeft_add_eq_or_of_lt (by omega), Nat.shiftLeft_eq]
  have split14 : a / 2 ^ 27 * 2 ^ 27 + a / 2 ^ 14 % 2 ^ 2 * 2 ^ 14 = (a / 2 ^ 27 * 2 ^ 13 + a / 2 ^ 14 % 2 ^ 2) * 2 ^ 14 := by
    omega
  rw [split14, ← Nat.shiftLeft_eq _ 14, ← Nat.shiftLeft_add_eq_or_of_lt (by omega), Nat.shiftLeft_eq, Nat.pow_one]

/-- T1's mask and match as field tests. -/
theorem matches_t1 (w : Word) :
    w &&& 0xF800D000#32 = 0xF000D000#32 ↔
      w.toNat / 2 ^ 27 = 30 ∧ w.toNat / 2 ^ 14 % 2 ^ 2 = 3 ∧ w.toNat / 2 ^ 12 % 2 = 1 := by
  have h := and_maskT w.toNat w.isLt
  rw [← BitVec.toNat_inj, BitVec.toNat_and]
  simp at h ⊢
  omega

/-- T2's mask and match as field tests. -/
theorem matches_t2 (w : Word) :
    w &&& 0xF800D000#32 = 0xF000C000#32 ↔
      w.toNat / 2 ^ 27 = 30 ∧ w.toNat / 2 ^ 14 % 2 ^ 2 = 3 ∧ w.toNat / 2 ^ 12 % 2 = 0 := by
  have h := and_maskT w.toNat w.isLt
  rw [← BitVec.toNat_inj, BitVec.toNat_and]
  simp at h ⊢
  omega

/-- A1's further condition (R36). -/
theorem condAllowed_field (w : Word) : condAllowed (w.extractLsb' 28 4) = true ↔ w.toNat / 2 ^ 28 ≠ 15 := by
  have hw := w.isLt
  rw [condAllowed, bne_iff_ne, ne_eq, ← BitVec.toNat_inj, field_toNat]
  simp
  omega

/-! ### The decoder -/

/-- The decoder in A32 state, by the rows' masks. -/
theorem decodeWord_a32_masks (w : Word) :
    decodeWord false w =
      if w &&& 0x0F000000#32 = 0x0B000000#32 ∧ condAllowed (w.extractLsb' 28 4) = true then .ok (fieldsOf .a1 w)
      else if w &&& 0xFE000000#32 = 0xFA000000#32 then .ok (fieldsOf .a2 w)
      else .error (.noA32Row w) := by
  by_cases a : w &&& 0x0F000000#32 = 0x0B000000#32 <;> by_cases b : w &&& 0xFE000000#32 = 0xFA000000#32 <;>
    by_cases c : condAllowed (w.extractLsb' 28 4) = true <;>
    simp [decodeWord, opcodeRows, OpcodeRow.selects, Encoding.tbit, whyNoRow, a, b, c]

/-- The decoder in A32 state, by fields as numbers. -/
theorem decodeWord_a32 (w : Word) :
    decodeWord false w =
      if w.toNat / 2 ^ 24 % 2 ^ 4 = 11 ∧ w.toNat / 2 ^ 28 ≠ 15 then .ok (fieldsOf .a1 w)
      else if w.toNat / 2 ^ 25 = 125 then .ok (fieldsOf .a2 w)
      else .error (.noA32Row w) := by
  rw [decodeWord_a32_masks]
  simp only [matches_a1, matches_a2, condAllowed_field]

/-- The decoder in T32 state, by the rows' masks. -/
theorem decodeWord_t32_masks (w : Word) :
    decodeWord true w =
      if w &&& 0xF800D000#32 = 0xF000D000#32 then .ok (fieldsOf .t1 w)
      else if w &&& 0xF800D000#32 = 0xF000C000#32 then .ok (fieldsOf .t2 w)
      else .error (whyNoRow true w) := by
  by_cases a : w &&& 0xF800D000#32 = 0xF000D000#32 <;> by_cases b : w &&& 0xF800D000#32 = 0xF000C000#32 <;>
    simp [decodeWord, opcodeRows, OpcodeRow.selects, Encoding.tbit, a, b]

/-- The decoder in T32 state, by fields as numbers. -/
theorem decodeWord_t32 (w : Word) :
    decodeWord true w =
      if w.toNat / 2 ^ 27 = 30 ∧ w.toNat / 2 ^ 14 % 2 ^ 2 = 3 ∧ w.toNat / 2 ^ 12 % 2 = 1 then .ok (fieldsOf .t1 w)
      else if w.toNat / 2 ^ 27 = 30 ∧ w.toNat / 2 ^ 14 % 2 ^ 2 = 3 ∧ w.toNat / 2 ^ 12 % 2 = 0 then .ok (fieldsOf .t2 w)
      else .error (whyNoRow true w) := by
  rw [decodeWord_t32_masks]
  simp only [matches_t1, matches_t2]

/-- The byte order of R26 loses nothing: the bytes of a value make the value. -/
theorem wordOfBytes_bytesOfWord (t : Bool) (w : Word) :
    ∃ b0 b1 b2 b3, bytesOfWord t w = [b0, b1, b2, b3] ∧ wordOfBytes t b0 b1 b2 b3 = w := by
  have hw := w.isLt
  cases t
  all_goals
    refine ⟨_, _, _, _, rfl, BitVec.eq_of_toNat_eq ?_⟩
    refine (append_toNat (_ ++ _) (_ ++ _)).trans ?_
    simp only [append_toNat, field_toNat]
    omega

end Sys2Proof
end

