-- ==== Sys2Proof/Laws/State.lean ====
section
/-! SUPPORT. What each update of the state does to each field: the only lemmas that unfold a record update. -/

namespace Sys2Proof.Machine

variable (s : State)

/-! ### `setReg` -/

@[simp] theorem State.setReg_pc (i : Fin 15) (x : Word) : (s.setReg i x).pc = s.pc := rfl

@[simp] theorem State.setReg_n (i : Fin 15) (x : Word) : (s.setReg i x).n = s.n := rfl

@[simp] theorem State.setReg_z (i : Fin 15) (x : Word) : (s.setReg i x).z = s.z := rfl

@[simp] theorem State.setReg_c (i : Fin 15) (x : Word) : (s.setReg i x).c = s.c := rfl

@[simp] theorem State.setReg_v (i : Fin 15) (x : Word) : (s.setReg i x).v = s.v := rfl

@[simp] theorem State.setReg_t (i : Fin 15) (x : Word) : (s.setReg i x).t = s.t := rfl

@[simp] theorem State.setReg_it (i : Fin 15) (x : Word) : (s.setReg i x).it = s.it := rfl

@[simp] theorem State.setReg_mem (i : Fin 15) (x : Word) : (s.setReg i x).mem = s.mem := rfl

@[simp] theorem State.setReg_mark (i : Fin 15) (x : Word) : (s.setReg i x).mark = s.mark := rfl

@[simp] theorem State.setReg_regs (i : Fin 15) (x : Word) : (s.setReg i x).regs = s.regs.set i x := rfl

@[simp] theorem State.reg_setReg_same (i : Fin 15) (x : Word) : (s.setReg i x).reg i = x := by
  simp [State.reg, State.setReg, Vector.get_eq_getElem]

theorem State.reg_setReg_other {i j : Fin 15} (x : Word) (h : j ≠ i) : (s.setReg i x).reg j = s.reg j := by
  have : i.val ≠ j.val := fun e => h (Fin.ext e.symm)
  simp [State.reg, State.setReg, Vector.get_eq_getElem, this]

theorem State.reg_of_regs_eq {s s' : State} (h : s'.regs = s.regs) (j : Fin 15) : s'.reg j = s.reg j := by
  simp [State.reg, h]

theorem State.lr_of_regs_eq {s s' : State} (h : s'.regs = s.regs) : s'.lr = s.lr := State.reg_of_regs_eq h 14

/-! ### `setLr` -/

@[simp] theorem State.setLr_pc (x : Word) : (s.setLr x).pc = s.pc := rfl

@[simp] theorem State.setLr_n (x : Word) : (s.setLr x).n = s.n := rfl

@[simp] theorem State.setLr_z (x : Word) : (s.setLr x).z = s.z := rfl

@[simp] theorem State.setLr_c (x : Word) : (s.setLr x).c = s.c := rfl

@[simp] theorem State.setLr_v (x : Word) : (s.setLr x).v = s.v := rfl

@[simp] theorem State.setLr_t (x : Word) : (s.setLr x).t = s.t := rfl

@[simp] theorem State.setLr_it (x : Word) : (s.setLr x).it = s.it := rfl

@[simp] theorem State.setLr_mem (x : Word) : (s.setLr x).mem = s.mem := rfl

@[simp] theorem State.setLr_mark (x : Word) : (s.setLr x).mark = s.mark := rfl

@[simp] theorem State.setLr_regs (x : Word) : (s.setLr x).regs = s.regs.set 14 x := rfl

@[simp] theorem State.lr_setLr (x : Word) : (s.setLr x).lr = x := s.reg_setReg_same 14 x

theorem State.reg_setLr_other (x : Word) {j : Fin 15} (h : j ≠ 14) : (s.setLr x).reg j = s.reg j :=
  s.reg_setReg_other x h

/-! ### `selectInstrSet` -/

@[simp] theorem State.selectInstrSet_regs (iset : InstrSet) : (s.selectInstrSet iset).regs = s.regs := by cases iset <;> rfl

@[simp] theorem State.selectInstrSet_pc (iset : InstrSet) : (s.selectInstrSet iset).pc = s.pc := by cases iset <;> rfl

@[simp] theorem State.selectInstrSet_n (iset : InstrSet) : (s.selectInstrSet iset).n = s.n := by cases iset <;> rfl

@[simp] theorem State.selectInstrSet_z (iset : InstrSet) : (s.selectInstrSet iset).z = s.z := by cases iset <;> rfl

@[simp] theorem State.selectInstrSet_c (iset : InstrSet) : (s.selectInstrSet iset).c = s.c := by cases iset <;> rfl

@[simp] theorem State.selectInstrSet_v (iset : InstrSet) : (s.selectInstrSet iset).v = s.v := by cases iset <;> rfl

@[simp] theorem State.selectInstrSet_it (iset : InstrSet) : (s.selectInstrSet iset).it = s.it := by cases iset <;> rfl

@[simp] theorem State.selectInstrSet_mem (iset : InstrSet) : (s.selectInstrSet iset).mem = s.mem := by cases iset <;> rfl

@[simp] theorem State.selectInstrSet_mark (iset : InstrSet) : (s.selectInstrSet iset).mark = s.mark := by cases iset <;> rfl

@[simp] theorem State.selectInstrSet_a32_t : (s.selectInstrSet .a32).t = false := rfl

@[simp] theorem State.selectInstrSet_t32_t : (s.selectInstrSet .t32).t = true := rfl

/-! ### `branchWritePC` -/

@[simp] theorem State.branchWritePC_regs (a : Word) (bt : BranchType) : (s.branchWritePC a bt).regs = s.regs := by unfold State.branchWritePC; split <;> rfl

@[simp] theorem State.branchWritePC_n (a : Word) (bt : BranchType) : (s.branchWritePC a bt).n = s.n := by unfold State.branchWritePC; split <;> rfl

@[simp] theorem State.branchWritePC_z (a : Word) (bt : BranchType) : (s.branchWritePC a bt).z = s.z := by unfold State.branchWritePC; split <;> rfl

@[simp] theorem State.branchWritePC_c (a : Word) (bt : BranchType) : (s.branchWritePC a bt).c = s.c := by unfold State.branchWritePC; split <;> rfl

@[simp] theorem State.branchWritePC_v (a : Word) (bt : BranchType) : (s.branchWritePC a bt).v = s.v := by unfold State.branchWritePC; split <;> rfl

@[simp] theorem State.branchWritePC_t (a : Word) (bt : BranchType) : (s.branchWritePC a bt).t = s.t := by unfold State.branchWritePC; split <;> rfl

@[simp] theorem State.branchWritePC_it (a : Word) (bt : BranchType) : (s.branchWritePC a bt).it = s.it := by unfold State.branchWritePC; split <;> rfl

@[simp] theorem State.branchWritePC_mem (a : Word) (bt : BranchType) : (s.branchWritePC a bt).mem = s.mem := by unfold State.branchWritePC; split <;> rfl

@[simp] theorem State.branchWritePC_mark (a : Word) (bt : BranchType) : (s.branchWritePC a bt).mark = s.mark := by unfold State.branchWritePC; split <;> rfl

theorem State.branchWritePC_pc (a : Word) (bt : BranchType) :
    (s.branchWritePC a bt).pc = if s.t then align2 a else align4 a := by
  unfold State.branchWritePC State.currentInstrSet
  cases s.t <;> rfl

/-! ### `toNextInstr` -/

@[simp] theorem State.toNextInstr_regs : (s.toNextInstr).regs = s.regs := rfl

@[simp] theorem State.toNextInstr_n : (s.toNextInstr).n = s.n := rfl

@[simp] theorem State.toNextInstr_z : (s.toNextInstr).z = s.z := rfl

@[simp] theorem State.toNextInstr_c : (s.toNextInstr).c = s.c := rfl

@[simp] theorem State.toNextInstr_v : (s.toNextInstr).v = s.v := rfl

@[simp] theorem State.toNextInstr_t : (s.toNextInstr).t = s.t := rfl

@[simp] theorem State.toNextInstr_it : (s.toNextInstr).it = s.it := rfl

@[simp] theorem State.toNextInstr_mem : (s.toNextInstr).mem = s.mem := rfl

@[simp] theorem State.toNextInstr_mark : (s.toNextInstr).mark = s.mark := rfl

@[simp] theorem State.toNextInstr_pc : s.toNextInstr.pc = s.pc + 4#32 := rfl

/-! ### `advanceIT` -/

@[simp] theorem State.advanceIT_regs : (s.advanceIT).regs = s.regs := rfl

@[simp] theorem State.advanceIT_pc : (s.advanceIT).pc = s.pc := rfl

@[simp] theorem State.advanceIT_n : (s.advanceIT).n = s.n := rfl

@[simp] theorem State.advanceIT_z : (s.advanceIT).z = s.z := rfl

@[simp] theorem State.advanceIT_c : (s.advanceIT).c = s.c := rfl

@[simp] theorem State.advanceIT_v : (s.advanceIT).v = s.v := rfl

@[simp] theorem State.advanceIT_t : (s.advanceIT).t = s.t := rfl

@[simp] theorem State.advanceIT_mem : (s.advanceIT).mem = s.mem := rfl

@[simp] theorem State.advanceIT_mark : (s.advanceIT).mark = s.mark := rfl

@[simp] theorem State.advanceIT_it : s.advanceIT.it = itAdvance s.it := rfl

/-! ### `placeWord` -/

@[simp] theorem State.placeWord_regs (t : Bool) (w : Word) : (s.placeWord t w).regs = s.regs := rfl

@[simp] theorem State.placeWord_pc (t : Bool) (w : Word) : (s.placeWord t w).pc = s.pc := rfl

@[simp] theorem State.placeWord_n (t : Bool) (w : Word) : (s.placeWord t w).n = s.n := rfl

@[simp] theorem State.placeWord_z (t : Bool) (w : Word) : (s.placeWord t w).z = s.z := rfl

@[simp] theorem State.placeWord_c (t : Bool) (w : Word) : (s.placeWord t w).c = s.c := rfl

@[simp] theorem State.placeWord_v (t : Bool) (w : Word) : (s.placeWord t w).v = s.v := rfl

@[simp] theorem State.placeWord_mark (t : Bool) (w : Word) : (s.placeWord t w).mark = s.mark := rfl

@[simp] theorem State.placeWord_t (t : Bool) (w : Word) : (s.placeWord t w).t = t := rfl

@[simp] theorem State.placeWord_it (t : Bool) (w : Word) : (s.placeWord t w).it = if t then s.it else 0#8 := rfl

@[simp] theorem State.placeWord_mem (t : Bool) (w : Word) :
    (s.placeWord t w).mem = loadBytes s.mem s.pc (bytesOfWord t w) := rfl

end Sys2Proof.Machine
end

