-- ==== Sys2Proof/Laws/Memory.lean ====
section
/-! SUPPORT. P_PROGRAM as data: a read after a write, and that every operation on it keeps the canonical form. -/

namespace Sys2Proof.Machine

theorem Memory.read_write_same (m : Memory) (a : Nat) (b : Byte) : Memory.read (Memory.write m a b) a = some b := by
  induction m with
  | nil => simp [Memory.write, Memory.read]
  | cons head rest ih =>
    obtain ⟨k, b'⟩ := head
    by_cases h1 : a < k
    · simp [Memory.write, Memory.read, h1]
    · by_cases h2 : k = a
      · simp [Memory.write, Memory.read, h2]
      · simp [Memory.write, Memory.read, h1, h2, ih]

theorem Memory.read_write_other (m : Memory) {a a' : Nat} (b : Byte) (h : a' ≠ a) :
    Memory.read (Memory.write m a b) a' = Memory.read m a' := by
  induction m with
  | nil => simp [Memory.write, Memory.read, Ne.symm h]
  | cons head rest ih =>
    obtain ⟨k, b'⟩ := head
    by_cases h1 : a < k
    · simp [Memory.write, Memory.read, h1, Ne.symm h]
    · by_cases h2 : k = a
      · subst h2
        simp [Memory.write, Memory.read, Ne.symm h]
      · simp [Memory.write, Memory.read, h1, h2, ih]

/-- A write lists no address that was not listed before but its own. -/
theorem Memory.mem_write {m : Memory} {a : Nat} {b : Byte} {x : Host.Cell} (h : x ∈ Memory.write m a b) :
    x.1 = a ∨ x ∈ m := by
  induction m with
  | nil => simp_all [Memory.write]
  | cons head rest ih =>
    obtain ⟨k, b'⟩ := head
    unfold Memory.write at h
    split at h
    · rcases List.mem_cons.1 h with rfl | h
      · exact .inl rfl
      · exact .inr h
    · split at h
      · rcases List.mem_cons.1 h with rfl | h
        · exact .inl rfl
        · exact .inr (List.mem_cons_of_mem _ h)
      · rcases List.mem_cons.1 h with rfl | h
        · exact .inr (List.mem_cons_self ..)
        · rcases ih h with h | h
          · exact .inl h
          · exact .inr (List.mem_cons_of_mem _ h)

theorem Memory.write_rising {m : Memory} (a : Nat) (b : Byte) (h : m.Pairwise (fun x y => x.1 < y.1)) :
    (Memory.write m a b).Pairwise (fun x y => x.1 < y.1) := by
  induction m with
  | nil => simp [Memory.write]
  | cons head rest ih =>
    obtain ⟨k, b'⟩ := head
    obtain ⟨hk, hrest⟩ := List.pairwise_cons.1 h
    unfold Memory.write
    split
    · rename_i hlt
      refine List.pairwise_cons.2 ⟨fun y hy => ?_, h⟩
      rcases List.mem_cons.1 hy with rfl | hy
      · exact hlt
      · exact Nat.lt_trans hlt (hk y hy)
    · split
      · rename_i heq
        subst heq
        exact List.pairwise_cons.2 ⟨hk, hrest⟩
      · rename_i hlt hne
        refine List.pairwise_cons.2 ⟨fun y hy => ?_, ih hrest⟩
        rcases Memory.mem_write hy with hy | hy
        · show k < y.1
          omega
        · exact hk y hy

/-- A write of a 32-bit address keeps the canonical form. -/
theorem Memory.write_wf {m : Memory} {a : Nat} (b : Byte) (ha : a < 2 ^ 32) (h : Memory.wf m) :
    Memory.wf (Memory.write m a b) := by
  refine ⟨Memory.write_rising a b h.1, fun x hx => ?_⟩
  rcases Memory.mem_write hx with hx | hx
  · omega
  · exact h.2 x hx

/-- Loading bytes keeps the canonical form. -/
theorem loadBytes_wf {m : Memory} (addr : Word) (bytes : List Byte) (h : Memory.wf m) : Memory.wf (loadBytes m addr bytes) := by
  induction bytes generalizing m addr with
  | nil => exact h
  | cons b rest ih => exact ih (addr + 1#32) (Memory.write_wf b addr.isLt h)

/-- Placing a word keeps the canonical form. -/
theorem State.placeWord_wf {s : State} (t : Bool) (w : Word) (h : Memory.wf s.mem) : Memory.wf (s.placeWord t w).mem :=
  loadBytes_wf s.pc (bytesOfWord t w) h

theorem State.withFetchWord_wf {s : State} (nbits w : Nat) (h : Memory.wf s.mem) : Memory.wf (s.withFetchWord nbits w).mem := by
  unfold State.withFetchWord State.placeTableWord
  split <;> exact State.placeWord_wf _ _ h

theorem State.reset_wf : Memory.wf State.reset.mem := by decide

/-- After four bytes are loaded at an address, the four reads give them back. -/
theorem read_loadBytes_four (m : Memory) (a : Word) (b0 b1 b2 b3 : Byte) :
    Memory.read (loadBytes m a [b0, b1, b2, b3]) a.toNat = some b0 ∧
    Memory.read (loadBytes m a [b0, b1, b2, b3]) (a + 1#32).toNat = some b1 ∧
    Memory.read (loadBytes m a [b0, b1, b2, b3]) (a + 2#32).toNat = some b2 ∧
    Memory.read (loadBytes m a [b0, b1, b2, b3]) (a + 3#32).toNat = some b3 := by
  have e2 : a + 1#32 + 1#32 = a + 2#32 := by bv_omega
  have e3 : a + 2#32 + 1#32 = a + 3#32 := by bv_omega
  have d (x y : Word) (h : x ≠ y) : x.toNat ≠ y.toNat := fun e => h (BitVec.eq_of_toNat_eq e)
  have h01 := d a (a + 1#32) (by bv_omega)
  have h02 := d a (a + 2#32) (by bv_omega)
  have h03 := d a (a + 3#32) (by bv_omega)
  have h12 := d (a + 1#32) (a + 2#32) (by bv_omega)
  have h13 := d (a + 1#32) (a + 3#32) (by bv_omega)
  have h23 := d (a + 2#32) (a + 3#32) (by bv_omega)
  simp only [loadBytes, e2, e3]
  refine ⟨?_, ?_, ?_, ?_⟩
  · rw [Memory.read_write_other _ _ h03, Memory.read_write_other _ _ h02, Memory.read_write_other _ _ h01,
      Memory.read_write_same]
  · rw [Memory.read_write_other _ _ h13, Memory.read_write_other _ _ h12, Memory.read_write_same]
  · rw [Memory.read_write_other _ _ h23, Memory.read_write_same]
  · rw [Memory.read_write_same]

end Sys2Proof.Machine
end

