-- ==== Sys2Proof/Laws/Ops.lean ====
section
/-! SUPPORT. One lemma per shared operation, saying everything it can do: the accessors under each value of `T`, the Operation,
what `exec` answers, and what a step that answers a next state did. -/

namespace Sys2Proof.Machine

/-! ### The accessors under `T` -/

theorem State.pcRead_eq (s : State) : s.pcRead = s.pc + (if s.t then 4#32 else 8#32) := by
  unfold State.pcRead State.currentInstrSet
  cases s.t <;> rfl

theorem State.linkValue_eq (s : State) :
    s.linkValue = if s.t then s.pcRead.extractLsb' 1 31 ++ 1#1 else s.pcRead - 4#32 := by
  unfold State.linkValue State.currentInstrSet
  cases s.t <;> rfl

/-! ### The Operation (R69) -/

@[simp] theorem State.linkAndBranch_regs (target : InstrSet) (imm : Word) (s : State) :
    (s.linkAndBranch target imm).regs = s.regs.set 14 s.linkValue := by
  simp [State.linkAndBranch]

@[simp] theorem State.linkAndBranch_n (target : InstrSet) (imm : Word) (s : State) :
    (s.linkAndBranch target imm).n = s.n := by simp [State.linkAndBranch]

@[simp] theorem State.linkAndBranch_z (target : InstrSet) (imm : Word) (s : State) :
    (s.linkAndBranch target imm).z = s.z := by simp [State.linkAndBranch]

@[simp] theorem State.linkAndBranch_c (target : InstrSet) (imm : Word) (s : State) :
    (s.linkAndBranch target imm).c = s.c := by simp [State.linkAndBranch]

@[simp] theorem State.linkAndBranch_v (target : InstrSet) (imm : Word) (s : State) :
    (s.linkAndBranch target imm).v = s.v := by simp [State.linkAndBranch]

@[simp] theorem State.linkAndBranch_it (target : InstrSet) (imm : Word) (s : State) :
    (s.linkAndBranch target imm).it = s.it := by simp [State.linkAndBranch]

@[simp] theorem State.linkAndBranch_mem (target : InstrSet) (imm : Word) (s : State) :
    (s.linkAndBranch target imm).mem = s.mem := by simp [State.linkAndBranch]

@[simp] theorem State.linkAndBranch_mark (target : InstrSet) (imm : Word) (s : State) :
    (s.linkAndBranch target imm).mark = s.mark := by simp [State.linkAndBranch]

@[simp] theorem State.linkAndBranch_a32_t (imm : Word) (s : State) : (s.linkAndBranch .a32 imm).t = false := by
  simp [State.linkAndBranch]

@[simp] theorem State.linkAndBranch_t32_t (imm : Word) (s : State) : (s.linkAndBranch .t32 imm).t = true := by
  simp [State.linkAndBranch]

@[simp] theorem State.linkAndBranch_a32_pc (imm : Word) (s : State) :
    (s.linkAndBranch .a32 imm).pc = align4 (align4 s.pcRead + imm) := by
  simp [State.linkAndBranch, State.branchWritePC_pc, State.targetAddress]

@[simp] theorem State.linkAndBranch_t32_pc (imm : Word) (s : State) :
    (s.linkAndBranch .t32 imm).pc = align2 (s.pcRead + imm) := by
  simp [State.linkAndBranch, State.branchWritePC_pc, State.targetAddress]

theorem State.operation_passed {cc : BitVec 4} {s : State} (h : s.conditionPassed cc = true) (target : InstrSet) (imm : Word) :
    s.operation cc target imm = s.linkAndBranch target imm := by simp [State.operation, h]

theorem State.operation_failed {cc : BitVec 4} {s : State} (h : s.conditionPassed cc = false) (target : InstrSet) (imm : Word) :
    s.operation cc target imm = s.toNextInstr := by simp [State.operation, h]

/-! ### The IT state (R21, R57) -/

/-- Outside an IT block or last in one, `IT` advances to zero. -/
theorem itAdvance_of_not_mid {it : BitVec 8} (h : midITBlock it = false) : itAdvance it = 0#8 := by
  revert it
  decide

theorem itCondition_eq (it : BitVec 8) :
    itCondition it = if it.extractLsb' 0 4 = 0#4 then 0b1110#4 else it.extractLsb' 4 4 := by
  by_cases h : it.extractLsb' 0 4 = 0#4 <;> simp [itCondition, inITBlock, h]

/-! ### What exec answers -/

/-- The state after an instruction that executes to its end (R64 to R67). -/
def afterInstr (i : Instr) (s : State) : State :=
  let done := s.operation (conditionOf i s.it) (targetSetOf i.encoding) (immOf i)
  if i.tbit then done.advanceIT else done

theorem afterInstr_passed {i : Instr} {s : State} (h : passes i s = true) :
    afterInstr i s =
      if i.tbit then (s.linkAndBranch (targetSetOf i.encoding) (immOf i)).advanceIT
      else s.linkAndBranch (targetSetOf i.encoding) (immOf i) := by
  simp only [afterInstr, State.operation_passed h]

theorem afterInstr_failed {i : Instr} {s : State} (h : passes i s = false) :
    afterInstr i s = if i.tbit then s.toNextInstr.advanceIT else s.toNextInstr := by
  simp only [afterInstr, State.operation_failed h]

/-- Everything the Operation and the IT advance can do to the registers. -/
theorem afterInstr_regs (i : Instr) (s : State) :
    (afterInstr i s).regs = if passes i s then s.regs.set 14 s.linkValue else s.regs := by
  cases h : passes i s
  · rw [afterInstr_failed h]
    split <;> simp
  · rw [afterInstr_passed h]
    split <;> simp

/-- What no instruction writes: flags, P_PROGRAM, the mark (R19, R29). -/
theorem afterInstr_unwritten (i : Instr) (s : State) :
    (afterInstr i s).n = s.n ∧ (afterInstr i s).z = s.z ∧ (afterInstr i s).c = s.c ∧ (afterInstr i s).v = s.v ∧
      (afterInstr i s).mem = s.mem ∧ (afterInstr i s).mark = s.mark := by
  cases h : passes i s
  · rw [afterInstr_failed h]
    split <;> simp
  · rw [afterInstr_passed h]
    split <;> simp

/-- An instruction that executes answers `afterInstr`. -/
theorem exec_of_executes {i : Instr} {s : State} (h : executes i s = true) : exec i s = .next (afterInstr i s) := by
  cases i <;>
    simp_all [executes, undefinedEncoding, exec, execBlA1, execBlxA2, execBlT1, execBlxT2, whenTbit, unlessMidITBlock,
      afterInstr, conditionOf, targetSetOf, immOf, Instr.tbit, Instr.encoding, Encoding.tbit]

/-- Everything `exec` answers when the instruction does not execute (R76, R77, log 10). -/
theorem exec_of_not_executes {i : Instr} {s : State} (h : executes i s = false) :
    exec i s =
      if s.t ≠ i.tbit then .refused (.notDescribed (.otherInstrSet (encodeWord i)))
      else if undefinedEncoding i then .fault (.undefined s.pc (encodeWord i))
      else .refused (.unpredictable (encodeWord i)) := by
  cases i <;>
    simp_all [executes, undefinedEncoding, exec, execBlA1, execBlxA2, execBlT1, execBlxT2, whenTbit, unlessMidITBlock,
      raiseUndefined, refuseUnpredictable, Instr.tbit, Instr.encoding, Encoding.tbit]
  all_goals split <;> simp_all

/-- If `exec` answers a next state, the instruction executed, and the state is `afterInstr`. -/
theorem exec_next {i : Instr} {s s' : State} (h : exec i s = .next s') : executes i s = true ∧ s' = afterInstr i s := by
  cases he : executes i s
  · rw [exec_of_not_executes he] at h
    split at h
    · cases h
    · split at h <;> cases h
  · rw [exec_of_executes he] at h
    exact ⟨rfl, (Host.Outcome.next.inj h).symm⟩

/-! ### Fetch and step -/

/-- The fetch when all four bytes are there (R26). -/
theorem State.fetchWord_of_bytes {s : State} {b0 b1 b2 b3 : Byte} (h0 : s.fetchByte s.pc = some b0)
    (h1 : s.fetchByte (s.pc + 1#32) = some b1) (h2 : s.fetchByte (s.pc + 2#32) = some b2)
    (h3 : s.fetchByte (s.pc + 3#32) = some b3) : s.fetchWord = .ok (wordOfBytes s.t b0 b1 b2 b3) := by
  simp only [State.fetchWord, State.fetchByteOrStop, h0, h1, h2, h3]

theorem State.fetchByteOrStop_error {s : State} {a : Word} {stop : Stop} (h : s.fetchByteOrStop a = .error stop) :
    stop = .fault (.stuck a) := by
  unfold State.fetchByteOrStop at h
  split at h
  · cases h
  · exact (Except.error.inj h).symm

/-- A fetch stops only where a byte is missing (R68). -/
theorem State.fetchWord_error {s : State} {stop : Stop} (h : s.fetchWord = .error stop) : ∃ a, stop = .fault (.stuck a) := by
  unfold State.fetchWord at h
  repeat' split at h
  all_goals first
    | (cases h; rename_i hb; exact ⟨_, State.fetchByteOrStop_error hb⟩)
    | cases h

/-- R68 in a legal, unmarked state whose fetch succeeds. -/
theorem State.fetchInstr_of_fetchWord {s : State} {w : Word} (hm : s.mark = none) (hi : s.illegality = none)
    (hw : s.fetchWord = .ok w) :
    s.fetchInstr =
      match decodeWord s.t w with
      | .ok i => .ok i
      | .error _ => .error (.refused (.notDescribed (.noRow w))) := by
  cases hd : decodeWord s.t w <;> simp [State.fetchInstr, hm, hi, hw, hd]

/-- A fetch that answers an instruction: the mark is clear, the state has a meaning, the four bytes are there and decode. -/
theorem State.fetchInstr_ok {s : State} {i : Instr} (h : s.fetchInstr = .ok i) :
    s.mark = none ∧ s.illegality = none ∧ ∃ w, s.fetchWord = .ok w ∧ decodeWord s.t w = .ok i := by
  unfold State.fetchInstr at h
  split at h
  · cases h
  · rename_i hm
    split at h
    · cases h
    · rename_i hi
      split at h
      · cases h
      · rename_i w hw
        split at h
        · rename_i j hd
          cases h
          exact ⟨hm, hi, w, hw, hd⟩
        · cases h

theorem State.illegality_none {s : State} : s.illegality = none ↔ pcAligned s.t s.pc = true ∧ itLegal s.t s.it = true := by
  unfold State.illegality
  cases pcAligned s.t s.pc <;> cases itLegal s.t s.it <;> simp

theorem Stop.outcome_ne_next (stop : Stop) (s : State) : stop.outcome ≠ .next s := by
  cases stop <;> simp [Stop.outcome]

/-- A step that answers a next state fetched an instruction from a legal, unmarked state and executed it. -/
theorem step_next {s s' : State} (h : step s = .next s') :
    ∃ i, s.fetchInstr = .ok i ∧ executes i s = true ∧ s' = afterInstr i s := by
  unfold step at h
  split at h
  · rename_i i hf
    exact ⟨i, hf, exec_next h⟩
  · rename_i stop _
    exact absurd h (Stop.outcome_ne_next stop s')

end Sys2Proof.Machine
end

