-- ==== Sys2Proof/Laws/PerInstr.lean ====
section
/-! SUPPORT. Statements per instruction. `RowPattern`: the value of a well-formed instruction is selected, under its instruction
set, by its own row of the opcode map (R44) and by no other. -/

namespace Sys2Proof.Laws.RowPattern

/-- The row of its own encoding selects a well-formed instruction's value, and no other row does. -/
def Statement (i : Instr) : Prop :=
  i.wf = true → ∀ r ∈ opcodeRows, r.selects i.tbit (encodeWord i) = true ↔ r.encoding = i.encoding

theorem blA1 (cond : BitVec 4) (imm24 : BitVec 24) : Statement (.blA1 cond imm24) := by
  intro h r hr
  have hc : cond.toNat ≠ 15 := by simpa [Instr.wf, condAllowed, ← BitVec.toNat_inj] using h
  have hw := encodeWord_blA1_toNat cond imm24
  have := cond.isLt
  have := imm24.isLt
  simp only [opcodeRows, List.mem_cons, List.not_mem_nil, or_false] at hr
  rcases hr with rfl | rfl | rfl | rfl <;>
    simp [OpcodeRow.selects, Instr.tbit, Instr.encoding, Encoding.tbit, matches_a1, matches_a2, condAllowed_field, hw]
  all_goals omega

theorem blxA2 (H : Bit) (imm24 : BitVec 24) : Statement (.blxA2 H imm24) := by
  intro _ r hr
  have hw := encodeWord_blxA2_toNat H imm24
  have := H.isLt
  have := imm24.isLt
  simp only [opcodeRows, List.mem_cons, List.not_mem_nil, or_false] at hr
  rcases hr with rfl | rfl | rfl | rfl <;>
    simp [OpcodeRow.selects, Instr.tbit, Instr.encoding, Encoding.tbit, matches_a1, matches_a2, condAllowed_field, hw]
  all_goals omega

theorem blT1 (S : Bit) (imm10 : BitVec 10) (J1 J2 : Bit) (imm11 : BitVec 11) : Statement (.blT1 S imm10 J1 J2 imm11) := by
  intro _ r hr
  have hw := encodeWord_blT1_toNat S imm10 J1 J2 imm11
  have := S.isLt
  have := imm10.isLt
  have := J1.isLt
  have := J2.isLt
  have := imm11.isLt
  simp only [opcodeRows, List.mem_cons, List.not_mem_nil, or_false] at hr
  rcases hr with rfl | rfl | rfl | rfl <;>
    simp [OpcodeRow.selects, Instr.tbit, Instr.encoding, Encoding.tbit, matches_t1, matches_t2, hw]
  all_goals omega

theorem blxT2 (S : Bit) (imm10H : BitVec 10) (J1 J2 : Bit) (imm10L : BitVec 10) (H : Bit) :
    Statement (.blxT2 S imm10H J1 J2 imm10L H) := by
  intro _ r hr
  have hw := encodeWord_blxT2_toNat S imm10H J1 J2 imm10L H
  have := S.isLt
  have := imm10H.isLt
  have := J1.isLt
  have := J2.isLt
  have := imm10L.isLt
  have := H.isLt
  simp only [opcodeRows, List.mem_cons, List.not_mem_nil, or_false] at hr
  rcases hr with rfl | rfl | rfl | rfl <;>
    simp [OpcodeRow.selects, Instr.tbit, Instr.encoding, Encoding.tbit, matches_t1, matches_t2, hw]
  all_goals omega

end Sys2Proof.Laws.RowPattern

namespace Sys2Proof.Laws

/-- Every instruction meets `RowPattern`. -/
theorem rowPattern (i : Instr) : RowPattern.Statement i := by
  cases i with
  | blA1 cond imm24 => exact RowPattern.blA1 cond imm24
  | blxA2 H imm24 => exact RowPattern.blxA2 H imm24
  | blT1 S imm10 J1 J2 imm11 => exact RowPattern.blT1 S imm10 J1 J2 imm11
  | blxT2 S imm10H J1 J2 imm10L H => exact RowPattern.blxT2 S imm10H J1 J2 imm10L H

end Sys2Proof.Laws
end

