-- ==== Sys2Proof/Tests/Slice0.lean ====
section
/-! SUPPORT. The model's own tests: the expected results are the vectors of spec/95_test_vectors.md or are worked out by hand from
the diagrams, and each statement with hypotheses has a witness that meets them. -/

namespace Sys2Proof.Tests

open Sys2Proof.Machine Sys2Proof.Claim

/-! ### Small states -/

/-- A state with the given instruction set, `pc` and `IT`, LR holding 0xDEADBEEF, every flag clear. -/
def stateAt (t : Bool) (pc : Word) (it : BitVec 8) : State :=
  { State.reset with t := t, pc := pc, it := it, regs := State.reset.regs.set 14 0xDEADBEEF#32 }

/-- The same state with a value loaded at its `pc`. -/
def holding (s : State) (w : Word) : State := { s with mem := loadBytes s.mem s.pc (bytesOfWord s.t w) }

/-- The outcome is a next state with this LR, `pc`, `T` and `IT`. -/
def lands (o : Outcome) (lr pc : Word) (t : Bool) (it : BitVec 8) : Bool :=
  match o with
  | .next s => s.lr == lr && s.pc == pc && s.t == t && s.it == it
  | .fault _ => false
  | .refused _ => false

/-- The outcome is this fault. -/
def faultsWith (o : Outcome) (f : Fault) : Bool :=
  match o with
  | .next _ => false
  | .fault g => g == f
  | .refused _ => false

/-- The outcome is this refusal. -/
def refusesWith (o : Outcome) (r : Refusal) : Bool :=
  match o with
  | .next _ => false
  | .fault _ => false
  | .refused q => q == r

/-! ### Well-formedness -/

/-- The one check: an A1 whose condition is 1111 has no encoding (R36). -/
theorem test_wf_refuses_a1_cond_1111 : (Instr.blA1 0b1111#4 0#24).wf = false := by decide

theorem test_wf_accepts_the_rest :
    (Instr.blA1 0b1110#4 0#24).wf = true ∧ (Instr.blxT2 0#1 0#10 0#1 0#1 0#10 1#1).wf = true := by decide

/-! ### Decoding: words written out from the diagrams (R36 to R39) and decoder vectors DEC-2 to DEC-10 -/

theorem test_decode_a1 : decodeWord false 0b1110_101_1_000000000000000000000010#32 = .ok (.blA1 0b1110#4 2#24) := by decide

theorem test_decode_a2 : decodeWord false 0b1111_101_1_000000000000000000000000#32 = .ok (.blxA2 1#1 0#24) := by decide

theorem test_decode_t1 :
    decodeWord true 0b11110_0_0000000001_11_1_1_0_00000000010#32 = .ok (.blT1 0#1 1#10 1#1 0#1 2#11) := by decide

theorem test_decode_t2 :
    decodeWord true 0b11110_1_0000000001_11_0_0_1_0000000010_0#32 = .ok (.blxT2 1#1 1#10 0#1 1#1 2#10 0#1) := by decide

theorem test_decode_refuses :
    decodeWord false 0xEA000000#32 = .error (.noA32Row 0xEA000000#32) ∧
    decodeWord true 0xF000B800#32 = .error (.noT32Row 0xF000B800#32) ∧
    decodeWord true 0xE800F800#32 = .error (.noT32Row 0xE800F800#32) ∧
    decodeWord false 0xF000F800#32 = .error (.noA32Row 0xF000F800#32) ∧
    decodeBytes true [0x00#8, 0xBF#8] = .error (.narrowT32 0xBF00#16) := by decide

/-- Byte order (R26): 0xEB000002 is `02 00 00 EB`, `F7FF EF80` is `FF F7 80 EF`. -/
theorem test_byte_order :
    encode (.blA1 0b1110#4 2#24) = [0x02#8, 0x00#8, 0x00#8, 0xEB#8] ∧
    encode (.blxT2 1#1 0x3FF#10 1#1 1#1 0x3C0#10 0#1) = [0xFF#8, 0xF7#8, 0x80#8, 0xEF#8] := by decide

/-- The table's words with every operand bit zero, as the first instruction after reset. -/
theorem test_table_words_run_first :
    decodeTableWord 32 0x0B000000 = some (.blA1 0#4 0#24) ∧
    decodeTableWord 32 0xF000C000 = some (.blxT2 0#1 0#10 0#1 0#1 0#10 0#1) ∧
    lands (step (State.reset.withFetchWord 32 0x0B000000)) 0#32 4#32 false 0#8 = true ∧
    lands (step (State.reset.withFetchWord 32 0xF000C000)) 5#32 0xC00004#32 false 0#8 = true := by decide

/-! ### One step of each instruction -/

/-- A1-8: BLEQ with Z = 0 moves `pc` alone. -/
theorem test_a1_condition_fails :
    lands (step (holding (stateAt false 0x1000#32 0#8) 0x0B000001#32)) 0xDEADBEEF#32 0x1004#32 false 0#8 = true := by decide

/-- A1-13: PCread wraps to zero at the top of the address space. -/
theorem test_a1_wraps :
    lands (step (holding (stateAt false 0xFFFFFFF8#32 0#8) 0xEBFFFFFF#32)) 0xFFFFFFFC#32 0xFFFFFFFC#32 false 0#8 = true := by decide

/-- A2-2: `H` adds 2, and the target is T32. -/
theorem test_a2_half_word_target :
    lands (step (holding (stateAt false 0x8000#32 0#8) 0xFB000000#32)) 0x8004#32 0x800A#32 true 0#8 = true := by decide

/-- A2-6: the least offset. -/
theorem test_a2_least_offset :
    lands (step (holding (stateAt false 0x02008000#32 0#8) 0xFA800000#32)) 0x02008004#32 0x8008#32 true 0#8 = true := by decide

/-- T1-4: the greatest offset, where J1 = J2 = 0 with S = 0 give I1 = I2 = 1. -/
theorem test_t1_greatest_offset :
    lands (step (holding (stateAt true 0x8000#32 0#8) 0xF3FFD7FF#32)) 0x8005#32 0x01008002#32 true 0#8 = true := by decide

/-- T1-11: inside an IT block and not last. -/
theorem test_t1_mid_it_block :
    refusesWith (step (holding (stateAt true 0x900C#32 0x04#8) 0xF000F802#32)) (.unpredictable 0xF000F802#32) = true := by decide

/-- T2-7: backward from an address 2 modulo 4, into A32. -/
theorem test_t2_aligns_its_base :
    lands (step (holding (stateAt true 0x8102#32 0#8) 0xF7FFEF80#32)) 0x8107#32 0x8004#32 false 0#8 = true := by decide

/-- T2-10: UNDEFINED wins over UNPREDICTABLE. -/
theorem test_t2_undefined_first :
    faultsWith (step (holding (stateAt true 0x8000#32 0x04#8) 0xF000E801#32)) (.undefined 0x8000#32 0xF000E801#32) = true := by decide

/-- R51: the assembler gives T2-7's word back for its label. -/
theorem test_assemble_t2 :
    assembleLine ⟨.t2, none, some .wide, 0x8004#32⟩ 0x8102#32 0#8 = some (.blxT2 1#1 0x3FF#10 1#1 1#1 0x3C0#10 0#1) ∧
    assembleLine ⟨.t2, none, some .narrow, 0x8004#32⟩ 0x8102#32 0#8 = none ∧
    assembleLine ⟨.t2, none, none, 0x8006#32⟩ 0x8102#32 0#8 = none := by decide

/-! ### Witnesses: states and operands that meet a statement's hypotheses -/

/-- An A1 BLEQ and T32 calls used below. -/
def bleq : Instr := .blA1 0b0000#4 1#24

def blxUp : Instr := .blxA2 1#1 0x7FFFFF#24

def blT : Instr := .blT1 0#1 0#10 1#1 1#1 2#11

def blxT : Instr := .blxT2 1#1 0x3FF#10 1#1 1#1 0x3C0#10 0#1

/-- Last in an IT block under EQ, at an address 2 modulo 4, with Z clear. -/
def lastEq : State := stateAt true 0x8102#32 0x08#8

theorem witness_DecodeT2ReadsItsFields : (stateAt true 0x8000#32 0x04#8).t = true := by decide

theorem witness_OpcodeMapSelectsByMaskAndMatch :
    let s := holding (stateAt false 0x8000#32 0#8) 0xEA000000#32
    s.mark = none ∧ legal s ∧ s.fetchWord = .ok 0xEA000000#32 ∧ ∀ i, decodeWord s.t 0xEA000000#32 ≠ .ok i := by
  refine ⟨rfl, by unfold legal; decide, by decide, fun i h => ?_⟩
  have e : decodeWord false 0xEA000000#32 = .error (.noA32Row 0xEA000000#32) := by decide
  exact absurd (e.symm.trans h) (by simp)

theorem witness_UndefinedWordsAreT2WithHSet :
    (0xF000E801#32 : Word) &&& 0xF800D001#32 = 0xF000C001#32 ∧
    decodeWord true 0xF000E801#32 = .ok (.blxT2 0#1 0#10 1#1 1#1 0#10 1#1) ∧ (stateAt true 0x8000#32 0x04#8).t = true := by decide

theorem witness_OnlyCond1111IsReserved :
    (0xFB000000#32 : Word).extractLsb' 25 7 = 0b1111101#7 ∧ (0xFA000000#32 : Word).extractLsb' 25 7 = 0b1111101#7 ∧
    ∀ cond imm24, bleq = .blA1 cond imm24 → cond ≠ 0b1111#4 := by
  refine ⟨by decide, by decide, fun cond imm24 h => ?_⟩
  have : cond = 0b0000#4 := by
    rw [bleq] at h
    exact (Instr.blA1.inj h).1.symm
  subst this
  decide

theorem witness_DecodeOfEncodeIsTheInstruction : bleq.wf = true ∧ (Instr.blxT2 0#1 0#10 0#1 0#1 0#10 1#1).wf = true := by decide

theorem witness_EncodeOfDecodeIsTheWord :
    decodeWord false 0xFB7FFFFF#32 = .ok blxUp ∧ decodeWord true 0xF7FFEF80#32 = .ok blxT := by decide

theorem witness_NoWordIsAnInstructionInBothSets : decodeWord false 0xFB7FFFFF#32 = .ok blxUp := by decide

theorem witness_T32InstructionStartsWide :
    decodeBytes true [0xFF#8, 0xF7#8, 0x80#8, 0xEF#8, 0x01#8] = .ok (blxT, [0x01#8]) := by decide

theorem witness_ImmediateT2HasItsRange : (stateAt true 0x8000#32 0#8).t = true := by decide

/-- A condition that passes and one that fails, in both sets. -/
theorem witness_OperationLinksAndBranches :
    executes blxUp (stateAt false 0x8000#32 0#8) = true ∧ passes blxUp (stateAt false 0x8000#32 0#8) = true ∧
    executes bleq (stateAt false 0x8000#32 0#8) = true ∧ passes bleq (stateAt false 0x8000#32 0#8) = false ∧
    executes blxT (stateAt true 0x8102#32 0#8) = true ∧ passes blxT (stateAt true 0x8102#32 0#8) = true ∧
    executes blxT lastEq = true ∧ passes blxT lastEq = false := by decide

/-- The last aligned address; the condition fails with Z clear and passes with Z set. -/
theorem witness_BlA1Result :
    let s := stateAt false 0xFFFFFFFC#32 0#8
    s.t = false ∧ s.pc.toNat % 4 = 0 ∧ conditionHolds 0b0000#4 s.n s.z s.c s.v = false ∧
      conditionHolds 0b0001#4 s.n s.z s.c s.v = true := by decide

theorem witness_BlxA2Result : (stateAt false 0xFFFFFFFC#32 0#8).t = false ∧ (stateAt false 0xFFFFFFFC#32 0#8).pc.toNat % 4 = 0 := by decide

/-- Outside a block (always taken), and last in one under EQ (failing) and under NE (passing). -/
theorem witness_BlT1Result :
    (stateAt true 0xFFFFFFFE#32 0x00#8).t = true ∧ (stateAt true 0xFFFFFFFE#32 0x00#8).pc.toNat % 2 = 0 ∧
    itAdmits 0x00#8 ∧ itAdmits 0x08#8 ∧ itAdmits 0x18#8 ∧
    lastEq.conditionPassed (lastEq.it.extractLsb' 4 4) = false ∧
    (stateAt true 0x8102#32 0x18#8).conditionPassed 0b0001#4 = true := by
  unfold itAdmits
  decide

theorem witness_BlxT2Result : lastEq.t = true ∧ lastEq.pc.toNat % 2 = 0 ∧ itAdmits lastEq.it ∧ itAdmits 0x00#8 := by
  unfold itAdmits
  decide

theorem witness_ConditionalA1FollowsTheTable :
    let s := stateAt false 0x1000#32 0#8
    s.t = false ∧ condTable 0b0000#4 s = false ∧ condTable 0b0001#4 s = true ∧ condTable 0b1110#4 s = true := by decide

theorem witness_T32ConditionComesFromIT :
    blT.tbit = true ∧ undefinedEncoding blT = false ∧ lastEq.t = true ∧ itAdmits lastEq.it ∧ itAdmits 0#8 ∧
    lastEq.it.extractLsb' 0 4 = 0b1000#4 ∧ (0#8 : BitVec 8).extractLsb' 0 4 = 0#4 := by
  unfold itAdmits
  decide

/-- What the right sides of the two exact statements about stops name. -/
theorem witness_stops :
    undefinedEncoding (.blxT2 0#1 0#10 1#1 1#1 0#10 1#1) = true ∧ (stateAt true 0x8000#32 0x04#8).t = true ∧
    blT.tbit = true ∧ undefinedEncoding blT = false ∧ ¬ itAdmits 0x04#8 ∧ ¬ itAdmits 0x0C#8 := by
  unfold itAdmits
  decide

theorem witness_ExecAnswersNextExactlyWhenItExecutes :
    (stateAt true 0x8000#32 0#8).t ≠ bleq.tbit ∧ (stateAt true 0x8102#32 0x08#8).t = blxT.tbit := by decide

theorem witness_FailedConditionMovesPcOnly :
    executes blxT lastEq = true ∧ passes blxT lastEq = false ∧
    executes bleq (stateAt false 0x1000#32 0#8) = true ∧ passes bleq (stateAt false 0x1000#32 0#8) = false := by decide

theorem witness_ExchangeExactlyOnTakenBlx :
    executes blxUp (stateAt false 0x8000#32 0#8) = true ∧ executes blT (stateAt true 0x8000#32 0#8) = true := by decide

theorem witness_LinkValueIsReturnAddressAndSet :
    let s := stateAt true 0xFFFFFFFE#32 0#8
    executes blxT s = true ∧ passes blxT s = true ∧ pcAligned s.t s.pc = true := by decide

theorem witness_TargetIsAlreadyAligned :
    let s := stateAt false 0xFFFFFFFC#32 0#8
    executes blxUp s = true ∧ passes blxUp s = true ∧ pcAligned s.t s.pc = true := by decide

theorem witness_T2TargetIgnoresTheHalfword :
    let s := stateAt true 0x8000#32 0#8
    blxT.encoding = .t2 ∧ executes blxT s = true ∧ passes blxT s = true ∧ s.pc.toNat % 4 = 0 := by decide

theorem witness_ExecFrame :
    (∃ s', exec blxUp (stateAt false 0x8000#32 0#8) = .next s') ∧ (∃ s', exec bleq (stateAt false 0x8000#32 0#8) = .next s') ∧
    ∃ s', exec blxT lastEq = .next s' := ⟨⟨_, rfl⟩, ⟨_, rfl⟩, ⟨_, rfl⟩⟩

theorem witness_UnconditionalCallsIgnoreTheFlags :
    (blxUp.encoding = .a2 ∨ (blxUp.tbit = true ∧ (stateAt false 0x8000#32 0#8).it = 0#8)) ∧
    (blT.encoding = .a2 ∨ (blT.tbit = true ∧ (stateAt true 0x8000#32 0#8).it = 0#8)) := by decide

theorem witness_StepRunsTheDecodedInstruction :
    let s := holding lastEq 0xF7FFEF80#32
    s.mark = none ∧ legal s ∧ bytesAtPc s 0xFF#8 0xF7#8 0x80#8 0xEF#8 ∧
      decodeBytes s.t [0xFF#8, 0xF7#8, 0x80#8, 0xEF#8] = .ok (blxT, []) := by
  unfold legal bytesAtPc
  decide

/-- A misaligned A32 pc, a misaligned T32 pc, an IT state in A32, an IT state with IT[3:0] = 0 and IT[7:4] not 0. -/
theorem witness_StepRefusesIllegalStates :
    ¬ legal (stateAt false 0x8002#32 0#8) ∧ ¬ legal (stateAt true 0x8001#32 0#8) ∧ ¬ legal (stateAt false 0x8000#32 0x08#8) ∧
    ¬ legal (stateAt true 0x8000#32 0x10#8) ∧ (stateAt true 0x8000#32 0x10#8).mark = none := by
  unfold legal
  decide

/-- No byte at all (k = 0), and a program that ends after three bytes (k = 3). -/
theorem witness_StepIsStuckWithoutAByte :
    let s := { stateAt false 0x8000#32 0#8 with mem := [(0x8000, 0#8), (0x8001, 0#8), (0x8002, 0#8)] }
    (legal (stateAt false 0x8000#32 0#8) ∧ (stateAt false 0x8000#32 0#8).fetchByte (0x8000#32 + BitVec.ofNat 32 0) = none) ∧
    s.mark = none ∧ legal s ∧ (∀ j < 3, s.fetchByte (s.pc + BitVec.ofNat 32 j) ≠ none) ∧
      s.fetchByte (s.pc + BitVec.ofNat 32 3) = none := by
  unfold legal
  decide

theorem witness_PlacedInstructionIsWhatStepRuns :
    blxT.wf = true ∧ lastEq.mark = none ∧ pcAligned blxT.tbit lastEq.pc = true ∧ itLegal true lastEq.it = true := by decide

theorem witness_StepKeepsTheStateLegal :
    let s := holding lastEq 0xF7FFEF80#32
    s.Inv ∧ ∃ s', step s = .next s' := ⟨⟨by decide, by decide, by decide, by decide⟩, ⟨_, rfl⟩⟩

theorem witness_StepLeavesITZero :
    lastEq.it ≠ 0#8 ∧ ∃ s', step (holding lastEq 0xF7FFEF80#32) = .next s' := ⟨by decide, ⟨_, rfl⟩⟩

theorem witness_RunKeepsRegistersFlagsAndProgram :
    pcAligned lastEq.t lastEq.pc = true ∧ itLegal lastEq.t lastEq.it = true := by decide

theorem witness_MarkIsNeverCleared :
    (runStep (holding (stateAt true 0x8000#32 0x04#8) 0xF000E801#32)).mark = some (.undefined 0x8000#32 0xF000E801#32) := by decide

/-- A fault, an UNPREDICTABLE, a `NotDescribed` and a stuck state. -/
theorem witness_StopsWriteTheMarkOnly :
    step (holding (stateAt true 0x8000#32 0#8) 0xF000E801#32) = .fault (.undefined 0x8000#32 0xF000E801#32) ∧
    step (holding (stateAt true 0x8000#32 0x04#8) 0xF000E800#32) = .refused (.unpredictable 0xF000E800#32) ∧
    step (holding (stateAt false 0x8000#32 0#8) 0xEA000000#32) = .refused (.notDescribed (.noRow 0xEA000000#32)) ∧
    step (stateAt false 0x8000#32 0#8) = .fault (.stuck 0x8000#32) := ⟨rfl, rfl, rfl, rfl⟩

/-- Each encoding at an end of its range. -/
theorem witness_AssembledCallReachesItsLabel :
    assemble .a1 0b0001#4 0x8000#32 0x02008004#32 = some (.blA1 0b0001#4 0x7FFFFF#24) ∧
    assemble .a2 0b1110#4 0x8000#32 0x02008006#32 = some blxUp ∧
    assemble .t1 0b1110#4 0x01008000#32 0x8004#32 = some (.blT1 1#1 0#10 0#1 0#1 0#11) ∧
    assemble .t2 0b1110#4 0x8102#32 0x8004#32 = some blxT ∧
    executes blxT (stateAt true 0x8102#32 0#8) = true ∧ passes blxT (stateAt true 0x8102#32 0#8) = true ∧
    pcAligned true 0x8102#32 = true := by decide

theorem witness_AssembleOfDisassembleIsTheInstruction :
    blxT.wf = true ∧ undefinedEncoding blxT = false ∧ bleq.wf = true ∧ undefinedEncoding bleq = false := by decide

end Sys2Proof.Tests
end

section
/-! PROOFS. P_PROGRAM and the instructions (R29): the shared operations commute with replacing the memory, and an instruction that
executes keeps the memory and every register but LR. -/

namespace Sys2Proof.Machine

open Sys2Proof.Claim

/-! ### Replacing the memory -/

theorem State.branchWritePC_withMem (s : State) (m : Memory) (a : Word) (bt : BranchType) :
    { s with mem := m }.branchWritePC a bt = { s.branchWritePC a bt with mem := m } := by
  unfold State.branchWritePC State.currentInstrSet
  cases s.t <;> rfl

theorem State.selectInstrSet_withMem (s : State) (m : Memory) (iset : InstrSet) :
    { s with mem := m }.selectInstrSet iset = { s.selectInstrSet iset with mem := m } := by
  cases iset <;> rfl

theorem State.setLr_withMem (s : State) (m : Memory) (x : Word) :
    { s with mem := m }.setLr x = { s.setLr x with mem := m } := rfl

theorem State.linkValue_withMem (s : State) (m : Memory) : { s with mem := m }.linkValue = s.linkValue := rfl

theorem State.targetAddress_withMem (s : State) (m : Memory) (target : InstrSet) (imm : Word) :
    { s with mem := m }.targetAddress target imm = s.targetAddress target imm := rfl

theorem State.linkAndBranch_withMem (s : State) (m : Memory) (target : InstrSet) (imm : Word) :
    { s with mem := m }.linkAndBranch target imm = { s.linkAndBranch target imm with mem := m } := by
  unfold State.linkAndBranch
  rw [State.linkValue_withMem, State.targetAddress_withMem, State.setLr_withMem, State.selectInstrSet_withMem,
    State.branchWritePC_withMem]

theorem State.operation_withMem (s : State) (m : Memory) (cc : BitVec 4) (target : InstrSet) (imm : Word) :
    { s with mem := m }.operation cc target imm = { s.operation cc target imm with mem := m } := by
  have hcond : { s with mem := m }.conditionPassed cc = s.conditionPassed cc := rfl
  cases h : s.conditionPassed cc
  · rw [State.operation_failed h, State.operation_failed (hcond.trans h)]
    rfl
  · rw [State.operation_passed h, State.operation_passed (hcond.trans h), State.linkAndBranch_withMem]

theorem afterInstr_withMem (i : Instr) (s : State) (m : Memory) :
    afterInstr i { s with mem := m } = { afterInstr i s with mem := m } := by
  simp only [afterInstr, State.operation_withMem]
  cases i.tbit <;> rfl

/-- An instruction reads no memory: whether it executes, and how it stops when it does not, are the same over any memory. -/
theorem exec_withMem (i : Instr) (s : State) (m : Memory) :
    exec i { s with mem := m } = mapNext (fun s' => { s' with mem := m }) (exec i s) := by
  have hexec : executes i { s with mem := m } = executes i s := rfl
  cases h : executes i s
  · rw [exec_of_not_executes h, exec_of_not_executes (hexec.trans h)]
    by_cases ht : s.t = i.tbit
    · cases hu : undefinedEncoding i <;> simp [ht, mapNext]
    · simp [ht, mapNext]
  · rw [exec_of_executes h, exec_of_executes (hexec.trans h), afterInstr_withMem]
    rfl

/-! ### What an instruction that executes keeps -/

theorem afterInstr_mem (i : Instr) (s : State) : (afterInstr i s).mem = s.mem := by
  obtain ⟨-, -, -, -, hmem, -⟩ := afterInstr_unwritten i s
  exact hmem

/-- LR is the only register an instruction writes (R69). -/
theorem afterInstr_reg_other (i : Instr) (s : State) {j : Fin 15} (hj : j ≠ 14) : (afterInstr i s).reg j = s.reg j := by
  have hregs := afterInstr_regs i s
  cases h : passes i s
  · exact State.reg_of_regs_eq (by simpa [h] using hregs) j
  · calc (afterInstr i s).reg j
        = (s.setLr s.linkValue).reg j := State.reg_of_regs_eq (by simpa [h] using hregs) j
      _ = s.reg j := s.reg_setLr_other s.linkValue hj

/-- Settles O33: the outcome commutes with replacing the memory, and a next state is `afterInstr`, which keeps the memory and every
register but LR. -/
theorem execNeitherReadsNorWritesMemory : Obligations.ExecNeitherReadsNorWritesMemory := by
  intro i s m
  refine ⟨exec_withMem i s m, fun s' h => ?_⟩
  obtain ⟨-, rfl⟩ := exec_next h
  exact ⟨afterInstr_mem i s, fun j hj => afterInstr_reg_other i s hj⟩

end Sys2Proof.Machine
end

section
/-! PROOFS. The UNDEFINED encoding (R45, R76): what executing it answers. -/

namespace Sys2Proof.Machine

/-- Only T2 has an UNDEFINED encoding. -/
theorem tbit_of_undefinedEncoding {i : Instr} (h : undefinedEncoding i = true) : i.tbit = true := by
  cases i with
  | blxT2 => rfl
  | _ => cases h

/-- An UNDEFINED instruction faults in T32 state, recording `pc` and the 32 bits, whatever `IT` and the flags (R76, R79). -/
theorem exec_of_undefinedEncoding {i : Instr} {s : State} (hu : undefinedEncoding i = true) (ht : s.t = true) :
    exec i s = .fault (.undefined s.pc (encodeWord i)) := by
  have hexec : executes i s = false := by simp [executes, hu]
  rw [exec_of_not_executes hexec]
  simp [ht, tbit_of_undefinedEncoding hu, hu]

end Sys2Proof.Machine
end

section
/-! PROOFS. The decoder reads the diagrams (R36 to R39, R45, R46): `decodeWord` and `encodeWord` are inverse on the well-formed
instructions of each set, so that which word decodes to an instruction is arithmetic on the word of its diagram. -/

namespace Sys2Proof

open Sys2Proof.Machine (exec_of_undefinedEncoding)

/-! ### Fields of a diagram's word, and the word of the fields -/

theorem fieldsOf_encodeWord (i : Instr) : fieldsOf i.encoding (encodeWord i) = i := by
  cases i with
  | blA1 cond imm24 =>
    have := cond.isLt
    have := imm24.isLt
    simp only [Instr.encoding, fieldsOf, Instr.blA1.injEq, ← BitVec.toNat_inj, field_toNat, encodeWord_blA1_toNat]
    omega
  | blxA2 H imm24 =>
    have := H.isLt
    have := imm24.isLt
    simp only [Instr.encoding, fieldsOf, Instr.blxA2.injEq, ← BitVec.toNat_inj, field_toNat, encodeWord_blxA2_toNat]
    omega
  | blT1 S imm10 J1 J2 imm11 =>
    have := S.isLt
    have := imm10.isLt
    have := J1.isLt
    have := J2.isLt
    have := imm11.isLt
    simp only [Instr.encoding, fieldsOf, Instr.blT1.injEq, ← BitVec.toNat_inj, field_toNat, encodeWord_blT1_toNat]
    omega
  | blxT2 S imm10H J1 J2 imm10L H =>
    have := S.isLt
    have := imm10H.isLt
    have := J1.isLt
    have := J2.isLt
    have := imm10L.isLt
    have := H.isLt
    simp only [Instr.encoding, fieldsOf, Instr.blxT2.injEq, ← BitVec.toNat_inj, field_toNat, encodeWord_blxT2_toNat]
    omega

theorem fieldsOf_tbit (e : Encoding) (w : Word) : (fieldsOf e w).tbit = e.tbit := by
  cases e <;> rfl

/-- The test of a row, taken apart (R44). -/
theorem OpcodeRow.selects_iff {r : OpcodeRow} {t : Bool} {w : Word} :
    r.selects t w = true ↔
      r.encoding.tbit = t ∧ w &&& r.mask = r.pattern ∧ (r.condNot1111 = true → condAllowed (w.extractLsb' 28 4) = true) := by
  cases h : r.condNot1111 <;> simp [OpcodeRow.selects, h, and_assoc]

/-- A word that a row selects is its fields put back into the row's diagram: no bit of it is outside the fields and the mask. -/
theorem encodeWord_fieldsOf {r : OpcodeRow} (hr : r ∈ opcodeRows) {t : Bool} {w : Word} (h : r.selects t w = true) :
    encodeWord (fieldsOf r.encoding w) = w := by
  have hw := w.isLt
  obtain ⟨-, hmask, -⟩ := OpcodeRow.selects_iff.mp h
  simp only [opcodeRows, List.mem_cons, List.not_mem_nil, or_false] at hr
  refine BitVec.eq_of_toNat_eq ?_
  rcases hr with rfl | rfl | rfl | rfl
  all_goals
    simp only [matches_a1, matches_a2, matches_t1, matches_t2] at hmask
    simp only [fieldsOf, encodeWord_blA1_toNat, encodeWord_blxA2_toNat, encodeWord_blT1_toNat, encodeWord_blxT2_toNat,
      field_toNat]
    omega

/-- A1's further condition is what makes the fields of a selected word well-formed (R36). -/
theorem fieldsOf_wf {r : OpcodeRow} (hr : r ∈ opcodeRows) {t : Bool} {w : Word} (h : r.selects t w = true) :
    (fieldsOf r.encoding w).wf = true := by
  obtain ⟨-, -, hcond⟩ := OpcodeRow.selects_iff.mp h
  simp only [opcodeRows, List.mem_cons, List.not_mem_nil, or_false] at hr
  rcases hr with rfl | rfl | rfl | rfl
  · exact hcond rfl
  all_goals rfl

/-! ### Decoding is the inverse of encoding -/

theorem decodeWord_encodeWord {i : Instr} (hwf : i.wf = true) : decodeWord i.tbit (encodeWord i) = .ok i := by
  have hrow := Laws.rowPattern i hwf
  unfold decodeWord
  split
  · next r hfind =>
    have hsel := List.find?_some hfind
    have henc : r.encoding = i.encoding := (hrow r (List.mem_of_find?_eq_some hfind)).mp hsel
    rw [henc, fieldsOf_encodeWord]
  · next hnone =>
    obtain ⟨r, hr, henc⟩ : ∃ r ∈ opcodeRows, r.encoding = i.encoding := by
      cases i <;> simp [opcodeRows, Instr.encoding]
    exact absurd ((hrow r hr).mpr henc) (List.find?_eq_none.mp hnone r hr)

/-- A word decodes to an instruction exactly when it is the word of the instruction's diagram. -/
theorem decodeWord_eq_ok_iff {t : Bool} {w : Word} {i : Instr} :
    decodeWord t w = .ok i ↔ i.wf = true ∧ i.tbit = t ∧ w = encodeWord i := by
  constructor
  · intro h
    unfold decodeWord at h
    split at h
    · next r hfind =>
      cases h
      have hr := List.mem_of_find?_eq_some hfind
      have hsel := List.find?_some hfind
      obtain ⟨ht, -, -⟩ := OpcodeRow.selects_iff.mp hsel
      exact ⟨fieldsOf_wf hr hsel, (fieldsOf_tbit _ w).trans ht, (encodeWord_fieldsOf hr hsel).symm⟩
    · cases h
  · rintro ⟨hwf, rfl, rfl⟩
    exact decodeWord_encodeWord hwf

/-! ### The fields of a word that decodes -/

/-- Settles O2: the word of A1's diagram is the word with A1's fixed bits and fields, and A1's `cond` is the one field with a value
that no well-formed instruction has. -/
theorem decodeA1ReadsItsFields : Obligations.DecodeA1ReadsItsFields := by
  intro w cond imm24
  have hw := w.isLt
  have := cond.isLt
  have := imm24.isLt
  have hwf : (Instr.blA1 cond imm24).wf = true ↔ cond ≠ 0b1111#4 := by simp [Instr.wf, condAllowed]
  rw [decodeWord_eq_ok_iff, hwf]
  simp only [Instr.tbit, Instr.encoding, Encoding.tbit, true_and, ne_eq, ← BitVec.toNat_inj, field_toNat,
    encodeWord_blA1_toNat, BitVec.toNat_ofNat]
  omega

/-- Settles O3: the word of A2's diagram is the word with A2's fixed bits and fields. -/
theorem decodeA2ReadsItsFields : Obligations.DecodeA2ReadsItsFields := by
  intro w H imm24
  have hw := w.isLt
  have := H.isLt
  have := imm24.isLt
  rw [decodeWord_eq_ok_iff]
  simp only [Instr.wf, Instr.tbit, Instr.encoding, Encoding.tbit, true_and, ← BitVec.toNat_inj, field_toNat,
    encodeWord_blxA2_toNat, BitVec.toNat_ofNat]
  omega

/-- Settles O4: the word of T1's diagram is the word with T1's fixed bits and fields. -/
theorem decodeT1ReadsItsFields : Obligations.DecodeT1ReadsItsFields := by
  intro w S imm10 J1 J2 imm11
  have hw := w.isLt
  have := S.isLt
  have := imm10.isLt
  have := J1.isLt
  have := J2.isLt
  have := imm11.isLt
  rw [decodeWord_eq_ok_iff]
  simp only [Instr.wf, Instr.tbit, Instr.encoding, Encoding.tbit, true_and, ← BitVec.toNat_inj, field_toNat,
    encodeWord_blT1_toNat, BitVec.toNat_ofNat]
  omega

/-- The word of T2's diagram is the word with T2's fixed bits and fields, with either `H` (R39). -/
theorem decodeWord_eq_blxT2_iff (w : Word) (S : Bit) (imm10H : BitVec 10) (J1 J2 : Bit) (imm10L : BitVec 10) (H : Bit) :
    decodeWord true w = .ok (.blxT2 S imm10H J1 J2 imm10L H) ↔
      w.extractLsb' 27 5 = 0b11110#5 ∧ w.extractLsb' 26 1 = S ∧ w.extractLsb' 16 10 = imm10H ∧
        w.extractLsb' 14 2 = 0b11#2 ∧ w.extractLsb' 13 1 = J1 ∧ w.extractLsb' 12 1 = 0#1 ∧ w.extractLsb' 11 1 = J2 ∧
        w.extractLsb' 1 10 = imm10L ∧ w.extractLsb' 0 1 = H := by
  have hw := w.isLt
  have := S.isLt
  have := imm10H.isLt
  have := J1.isLt
  have := J2.isLt
  have := imm10L.isLt
  have := H.isLt
  rw [decodeWord_eq_ok_iff]
  simp only [Instr.wf, Instr.tbit, Instr.encoding, Encoding.tbit, true_and, ← BitVec.toNat_inj, field_toNat,
    encodeWord_blxT2_toNat, BitVec.toNat_ofNat]
  omega

/-- Settles O5: the word of T2's diagram is the word with T2's fixed bits and fields, and `H = 1` is the UNDEFINED encoding. -/
theorem decodeT2ReadsItsFields : Obligations.DecodeT2ReadsItsFields := fun S imm10H J1 J2 imm10L =>
  ⟨fun w H => decodeWord_eq_blxT2_iff w S imm10H J1 J2 imm10L H,
    fun _ ht => ⟨_, _, exec_of_undefinedEncoding rfl ht⟩⟩

/-! ### The UNDEFINED words (R45) -/

/-- R45's mask adds `H`, bit 0, to the mask of T2's row. -/
theorem matches_undefined (w : Word) :
    w &&& 0xF800D001#32 = 0xF000C001#32 ↔ w &&& 0xF800D000#32 = 0xF000C000#32 ∧ w.extractLsb' 0 1 = 1#1 := by
  have hbit : w &&& 1#32 = 1#32 ↔ w.extractLsb' 0 1 = 1#1 := by
    rw [← BitVec.toNat_inj, ← BitVec.toNat_inj, field_toNat, BitVec.toNat_and]
    simp [Nat.and_one_is_mod]
  rw [← hbit]
  constructor
  · intro h
    constructor
    · calc w &&& 0xF800D000#32 = (w &&& 0xF800D001#32) &&& 0xF800D000#32 := by rw [BitVec.and_assoc]; rfl
        _ = 0xF000C000#32 := by rw [h]; rfl
    · calc w &&& 1#32 = (w &&& 0xF800D001#32) &&& 1#32 := by rw [BitVec.and_assoc]; rfl
        _ = 1#32 := by rw [h]; rfl
  · rintro ⟨hrow, hH⟩
    calc w &&& 0xF800D001#32 = (w &&& 0xF800D000#32) ||| (w &&& 1#32) := by rw [← BitVec.and_or_distrib_left]; rfl
      _ = 0xF000C001#32 := by rw [hrow, hH]; rfl

/-- A word under R45's mask decodes to the T2 of its fields, with `H = 1`. -/
theorem decodeWord_of_matches_undefined {w : Word} (h : w &&& 0xF800D001#32 = 0xF000C001#32) :
    decodeWord true w = .ok (.blxT2 (w.extractLsb' 26 1) (w.extractLsb' 16 10) (w.extractLsb' 13 1) (w.extractLsb' 11 1)
      (w.extractLsb' 1 10) 1#1) := by
  obtain ⟨hrow, hH⟩ := (matches_undefined w).mp h
  simp [decodeWord_t32_masks, hrow, fieldsOf, hH]

/-- Settles O7: R45's mask is T2's row with `H = 1`, whose instruction is the UNDEFINED one. -/
theorem undefinedWordsAreT2WithHSet : Obligations.UndefinedWordsAreT2WithHSet := by
  refine fun w => ⟨⟨fun h => ⟨_, _, _, _, _, decodeWord_of_matches_undefined h⟩, ?_⟩, ?_⟩
  · rintro ⟨S, imm10H, J1, J2, imm10L, h⟩
    obtain ⟨htop, -, -, h14, -, h12, -, -, hH⟩ := (decodeWord_eq_blxT2_iff w S imm10H J1 J2 imm10L 1#1).mp h
    have hw := w.isLt
    rw [matches_undefined, matches_t2]
    simp only [← BitVec.toNat_inj, field_toNat, BitVec.toNat_ofNat] at htop h14 h12
    exact ⟨by omega, hH⟩
  · intro i s h hdec ht
    cases (decodeWord_of_matches_undefined h).symm.trans hdec
    exact ⟨_, _, exec_of_undefinedEncoding rfl ht⟩

/-! ### The one reserved value (R46) -/

/-- Settles O8: bits 31:25 equal to 1111101 are A2's fixed bits, and every instruction but an A1 with `cond` 1111 is well-formed, so
the word of its diagram decodes to it. -/
theorem onlyCond1111IsReserved : Obligations.OnlyCond1111IsReserved := by
  constructor
  · intro w h
    have hw := w.isLt
    refine (decodeA2ReadsItsFields w _ _).mpr ⟨?_, ?_, rfl, rfl⟩
    all_goals
      simp only [← BitVec.toNat_inj, field_toNat, BitVec.toNat_ofNat] at h ⊢
      omega
  · intro i hi
    have hwf : i.wf = true := by
      cases i with
      | blA1 cond imm24 => simpa [Instr.wf, condAllowed] using hi cond imm24 rfl
      | _ => rfl
    exact ⟨encodeWord i, decodeWord_encodeWord hwf⟩

end Sys2Proof
end

section
/-! PROOFS. The ranges of the immediates (R40 to R43): each `imm32` is the sign extension of a bit string with zeros at its low end,
and the fields of each encoding give every such string. -/

namespace Sys2Proof.Machine

/-! ### Strings from fields -/

/-- Two adjacent fields give every string of their joint length. -/
theorem exists_append_eq {w n : Nat} (z : BitVec (w + n)) : ∃ (x : BitVec w) (y : BitVec n), x ++ y = z :=
  ⟨z.extractLsb' n w, z.extractLsb' 0 n, by
    rw [BitVec.extractLsb'_append_extractLsb'_eq_extractLsb' (by omega), BitVec.extractLsb'_eq_self]⟩

theorem iBit_iBit (J S : Bit) : iBit (iBit J S) S = J := by
  revert J S
  decide

/-- `S:I1:I2:imm10` and a low field give every string of their joint length: under either `S` the bit `J` gives both values of `I`
(R42, R43). -/
theorem exists_offsetString_iff {n : Nat} {p : BitVec (1 + 1 + 1 + 10 + n) → Prop} :
    (∃ (S : Bit) (imm10 : BitVec 10) (J1 J2 : Bit) (low : BitVec n), p (S ++ iBit J1 S ++ iBit J2 S ++ imm10 ++ low)) ↔
      ∃ z, p z := by
  constructor
  · rintro ⟨S, imm10, J1, J2, low, h⟩
    exact ⟨_, h⟩
  · rintro ⟨z, h⟩
    obtain ⟨z, low, rfl⟩ := exists_append_eq z
    obtain ⟨z, imm10, rfl⟩ := exists_append_eq z
    obtain ⟨z, I2, rfl⟩ := exists_append_eq z
    obtain ⟨S, I1, rfl⟩ := exists_append_eq z
    exact ⟨S, imm10, iBit I1 S, iBit I2 S, low, by simpa only [iBit_iBit] using h⟩

/-! ### Signed values -/

theorem exists_toInt_eq_iff {w : Nat} (hw : 0 < w) (k : Int) :
    (∃ x : BitVec w, x.toInt = k) ↔ -2 ^ (w - 1) ≤ k ∧ k < 2 ^ (w - 1) := by
  constructor
  · rintro ⟨x, rfl⟩
    exact ⟨x.le_toInt, x.toInt_lt⟩
  · rintro ⟨hlo, hhi⟩
    exact ⟨BitVec.ofInt w k, BitVec.toInt_ofInt_eq_self hw hlo hhi⟩

/-- A string with `n` zeros at its low end, sign-extended: its value is the string's, times `2 ^ n`. -/
theorem toInt_signExtend_append_zeros {w n : Nat} (h : w + n ≤ 32) (x : BitVec w) :
    ((x ++ 0#n).signExtend 32).toInt = 2 ^ n * x.toInt := by
  rw [BitVec.toInt_signExtend_of_le h, BitVec.toInt_append_zero]

/-- The values of an `imm32`: every multiple of `2 ^ n` that the signed string reaches. -/
theorem exists_imm_toInt_iff {w n : Nat} (hw : 0 < w) (h : w + n ≤ 32) (k : Int) :
    (∃ x : BitVec w, ((x ++ 0#n).signExtend 32).toInt = k) ↔
      k % 2 ^ n = 0 ∧ -(2 ^ n * 2 ^ (w - 1)) ≤ k ∧ k < 2 ^ n * 2 ^ (w - 1) := by
  have hpos : (0 : Int) < 2 ^ n := by positivity
  have hscale (j : Int) :
      -(2 ^ n * 2 ^ (w - 1)) ≤ 2 ^ n * j ∧ 2 ^ n * j < 2 ^ n * 2 ^ (w - 1) ↔ -2 ^ (w - 1) ≤ j ∧ j < 2 ^ (w - 1) := by
    rw [← mul_neg, mul_le_mul_iff_right₀ hpos, mul_lt_mul_iff_right₀ hpos]
  simp only [toInt_signExtend_append_zeros h]
  constructor
  · rintro ⟨x, rfl⟩
    exact ⟨Int.mul_emod_right _ _, (hscale _).mpr ⟨x.le_toInt, x.toInt_lt⟩⟩
  · rintro ⟨hmod, hrange⟩
    obtain ⟨j, rfl⟩ := Int.dvd_of_emod_eq_zero hmod
    obtain ⟨x, rfl⟩ := (exists_toInt_eq_iff hw j).mpr ((hscale j).mp hrange)
    exact ⟨x, rfl⟩

/-! ### The four encodings -/

/-- Settles O13: the strings are the `imm24`, over two zeros. -/
theorem immediateA1HasItsRange : Obligations.ImmediateA1HasItsRange := by
  refine ⟨fun _ _ => rfl, fun k => ?_, by decide, by decide, rfl⟩
  calc (∃ imm24, (imm32A1 imm24).toInt = k)
    _ ↔ _ := exists_imm_toInt_iff (w := 24) (n := 2) (by decide) (by decide) k
    _ ↔ k % 4 = 0 ∧ -33554432 ≤ k ∧ k ≤ 33554428 := by norm_num; omega

/-- Settles O14: the strings are those of `imm24` and `H` joined, over one zero. -/
theorem immediateA2HasItsRange : Obligations.ImmediateA2HasItsRange := by
  refine ⟨fun _ _ => rfl, fun k => ?_, by decide, by decide, rfl⟩
  calc (∃ H imm24, (imm32A2 H imm24).toInt = k)
    _ ↔ ∃ x : BitVec (24 + 1), ((x ++ 0#1).signExtend 32).toInt = k := by
      constructor
      · rintro ⟨H, imm24, h⟩
        exact ⟨imm24 ++ H, h⟩
      · rintro ⟨x, h⟩
        obtain ⟨imm24, H, rfl⟩ := exists_append_eq x
        exact ⟨H, imm24, h⟩
    _ ↔ _ := exists_imm_toInt_iff (by decide) (by decide) k
    _ ↔ k % 2 = 0 ∧ -33554432 ≤ k ∧ k ≤ 33554430 := by norm_num; omega

/-- Settles O15: the strings are those of `S:I1:I2:imm10:imm11`, over one zero. -/
theorem immediateT1HasItsRange : Obligations.ImmediateT1HasItsRange := by
  refine ⟨fun _ _ _ _ _ => rfl, by decide, fun k => ?_, by decide, by decide, rfl, by decide, by decide⟩
  calc (∃ S imm10 J1 J2 imm11, (imm32T1 S imm10 J1 J2 imm11).toInt = k)
    _ ↔ ∃ x : BitVec 24, ((x ++ 0#1).signExtend 32).toInt = k :=
      exists_offsetString_iff (n := 11) (p := fun x => ((x ++ 0#1).signExtend 32).toInt = k)
    _ ↔ _ := exists_imm_toInt_iff (by decide) (by decide) k
    _ ↔ k % 2 = 0 ∧ -16777216 ≤ k ∧ k ≤ 16777214 := by norm_num; omega

/-- Settles O16: the strings are those of `S:I1:I2:imm10H:imm10L`, over two zeros; `H = 1` is the UNDEFINED encoding. -/
theorem immediateT2HasItsRange : Obligations.ImmediateT2HasItsRange := by
  refine ⟨fun _ _ _ _ _ _ => rfl, fun k => ?_, rfl, fun _ _ _ _ _ _ ht => ⟨_, _, exec_of_undefinedEncoding rfl ht⟩⟩
  calc (∃ S imm10H J1 J2 imm10L, (imm32T2 S imm10H J1 J2 imm10L).toInt = k)
    _ ↔ ∃ x : BitVec 23, ((x ++ 0#2).signExtend 32).toInt = k :=
      exists_offsetString_iff (n := 10) (p := fun x => ((x ++ 0#2).signExtend 32).toInt = k)
    _ ↔ _ := exists_imm_toInt_iff (by decide) (by decide) k
    _ ↔ k % 4 = 0 ∧ -16777216 ≤ k ∧ k ≤ 16777212 := by norm_num; omega

end Sys2Proof.Machine
end

section
/-! PROOFS. The Operation (R69): what an instruction that executes leaves in LR, `T` and `pc`. -/

namespace Sys2Proof.Machine

/-! ### The branch, by its target set -/

/-- Every encoding of the page branches to A32 or to T32, never to A64 (R40 to R43). -/
theorem targetSetOf_eq (e : Encoding) : targetSetOf e = .a32 ∨ targetSetOf e = .t32 := by
  cases e <;> decide

theorem State.linkAndBranch_t {target : InstrSet} (h : target = .a32 ∨ target = .t32) (imm : Word) (s : State) :
    (s.linkAndBranch target imm).t = decide (target = .t32) := by
  obtain rfl | rfl := h
  · exact s.linkAndBranch_a32_t imm
  · exact s.linkAndBranch_t32_t imm

theorem State.linkAndBranch_pc {target : InstrSet} (h : target = .a32 ∨ target = .t32) (imm : Word) (s : State) :
    (s.linkAndBranch target imm).pc =
      if target = .a32 then align4 (align4 s.pcRead + imm) else align2 (s.pcRead + imm) := by
  obtain rfl | rfl := h
  · exact s.linkAndBranch_a32_pc imm
  · exact s.linkAndBranch_t32_pc imm

/-! ### LR, `T` and `pc` after an instruction that executes -/

theorem afterInstr_lr (i : Instr) (s : State) :
    (afterInstr i s).lr = if passes i s then s.linkValue else s.lr := by
  have hregs := afterInstr_regs i s
  cases h : passes i s
  · exact State.lr_of_regs_eq (by simpa [h] using hregs)
  · calc (afterInstr i s).lr
        = (s.setLr s.linkValue).lr := State.lr_of_regs_eq (by simpa [h] using hregs)
      _ = s.linkValue := s.lr_setLr s.linkValue

theorem afterInstr_t (i : Instr) (s : State) :
    (afterInstr i s).t = if passes i s then decide (targetSetOf i.encoding = .t32) else s.t := by
  cases h : passes i s
  · rw [afterInstr_failed h]
    split <;> simp
  · rw [afterInstr_passed h]
    split <;> simp [State.linkAndBranch_t (targetSetOf_eq i.encoding)]

theorem afterInstr_pc (i : Instr) (s : State) :
    (afterInstr i s).pc =
      if passes i s then
        if targetSetOf i.encoding = .a32 then align4 (align4 s.pcRead + immOf i) else align2 (s.pcRead + immOf i)
      else s.pc + 4#32 := by
  cases h : passes i s
  · rw [afterInstr_failed h]
    split <;> simp
  · rw [afterInstr_passed h, ← State.linkAndBranch_pc (targetSetOf_eq i.encoding)]
    split <;> simp

/-- Settles O17: the next state is `afterInstr`, whose LR is the link value of the current set, and whose `T` and `pc` are those of
the branch to the target set. -/
theorem operationLinksAndBranches : Obligations.OperationLinksAndBranches := by
  intro i s h
  refine ⟨afterInstr i s, exec_of_executes h, fun hp => ?_, fun hp => ?_⟩
  · have hlr : (afterInstr i s).lr = s.linkValue := by simp [afterInstr_lr, hp]
    exact ⟨hlr.trans s.linkValue_eq, by simp [afterInstr_t, hp], by simp [afterInstr_pc, hp]⟩
  · exact ⟨by simp [afterInstr_lr, hp], by simp [afterInstr_t, hp]⟩

end Sys2Proof.Machine
end

section
/-! PROOFS. Decoding and encoding, the whole opcode map (R44): the rows, the two instruction sets, the bytes of an encoding. -/

namespace Sys2Proof

open Sys2Proof.Machine (append_toNat)

/-! ### Bytes -/

/-- The decoder on four bytes or more reads the value they make (R26). -/
theorem decodeBytes_eq_ok_iff {t : Bool} {b0 b1 b2 b3 : Byte} {rest rest' : List Byte} {i : Instr} :
    decodeBytes t (b0 :: b1 :: b2 :: b3 :: rest) = .ok (i, rest') ↔
      decodeWord t (wordOfBytes t b0 b1 b2 b3) = .ok i ∧ rest' = rest := by
  cases h : decodeWord t (wordOfBytes t b0 b1 b2 b3) <;> simp [decodeBytes, h, eq_comm]

/-- Settles O9: the bytes of an encoding make its word, which decodes to the instruction. -/
theorem decodeOfEncodeIsTheInstruction : Obligations.DecodeOfEncodeIsTheInstruction := by
  intro i rest hwf
  obtain ⟨b0, b1, b2, b3, hbytes, hword⟩ := wordOfBytes_bytesOfWord i.tbit (encodeWord i)
  rw [encode, hbytes]
  exact decodeBytes_eq_ok_iff.mpr ⟨hword ▸ decodeWord_encodeWord hwf, rfl⟩

/-- Settles O10: a word decodes exactly to the well-formed instruction whose word it is. -/
theorem encodeOfDecodeIsTheWord : Obligations.EncodeOfDecodeIsTheWord := by
  intro t w i h
  obtain ⟨hwf, ht, hw⟩ := decodeWord_eq_ok_iff.mp h
  exact ⟨hwf, ht, hw.symm⟩

/-! ### The two instruction sets -/

/-- Bits 31:27 of both T32 diagrams are 11110 (R38, R39). -/
theorem encodeWord_top_of_t32 {i : Instr} (h : i.tbit = true) : (encodeWord i).toNat / 2 ^ 27 = 30 := by
  cases i with
  | blA1 | blxA2 => cases h
  | blT1 S imm10 J1 J2 imm11 =>
    rw [encodeWord_blT1_toNat]
    omega
  | blxT2 S imm10H J1 J2 imm10L H =>
    rw [encodeWord_blxT2_toNat]
    omega

/-- Bit 27 of both A32 diagrams is 1 (R36, R37). -/
theorem encodeWord_bit27_of_a32 {i : Instr} (h : i.tbit = false) : (encodeWord i).toNat / 2 ^ 27 % 2 = 1 := by
  cases i with
  | blA1 cond imm24 =>
    rw [encodeWord_blA1_toNat]
    omega
  | blxA2 H imm24 =>
    rw [encodeWord_blxA2_toNat]
    omega
  | blT1 | blxT2 => cases h

/-- The word of an instruction tells its instruction set. -/
theorem tbit_eq_of_encodeWord_eq {i j : Instr} (h : encodeWord i = encodeWord j) : i.tbit = j.tbit := by
  have differ {i j : Instr} (hi : i.tbit = false) (hj : j.tbit = true) : encodeWord i ≠ encodeWord j := by
    intro h
    have h27 := encodeWord_bit27_of_a32 hi
    rw [h, encodeWord_top_of_t32 hj] at h27
    cases h27
  cases hi : i.tbit <;> cases hj : j.tbit
  · rfl
  · exact absurd h (differ hi hj)
  · exact absurd h.symm (differ hj hi)
  · rfl

/-- Settles O11: a word that decoded in both sets would be the word of an A32 and of a T32 instruction. -/
theorem noWordIsAnInstructionInBothSets : Obligations.NoWordIsAnInstructionInBothSets := by
  intro w i h
  obtain ⟨-, hi, rfl⟩ := decodeWord_eq_ok_iff.mp h
  cases h' : decodeWord true (encodeWord i) with
  | error why => exact ⟨why, rfl⟩
  | ok j =>
    obtain ⟨-, hj, hw⟩ := decodeWord_eq_ok_iff.mp h'
    exact absurd (hi.symm.trans ((tbit_eq_of_encodeWord_eq hw).trans hj)) (by decide)

/-- The length rule of R48 as a bound: 11101, 11110 and 11111 are the values from 29 up. -/
theorem isWideT32_iff (hw1 : Halfword) : isWideT32 hw1 = true ↔ 29 ≤ hw1.toNat / 2 ^ 11 := by
  have := hw1.isLt
  simp only [isWideT32, Bool.or_eq_true, beq_iff_eq, ← BitVec.toNat_inj, BitVec.extractLsb'_toNat,
    Nat.shiftRight_eq_div_pow, BitVec.toNat_ofNat]
  omega

/-- Settles O12: bits 31:27 of a T32 encoding are 11110, and they are the top bits of its first halfword. -/
theorem t32InstructionStartsWide : Obligations.T32InstructionStartsWide := by
  intro b0 b1 b2 b3 i rest h
  obtain ⟨hdec, -⟩ := decodeBytes_eq_ok_iff.mp h
  obtain ⟨-, ht, hw⟩ := decodeWord_eq_ok_iff.mp hdec
  have htop := encodeWord_top_of_t32 ht
  have hword : (wordOfBytes true b0 b1 b2 b3).toNat = (b1 ++ b0).toNat * 2 ^ 16 + (b3 ++ b2).toNat := append_toNat _ _
  have hlow := (b3 ++ b2).isLt
  rw [isWideT32_iff]
  rw [← hw] at htop
  omega

/-! ### The rows -/

theorem exists_row (e : Encoding) : ∃ r ∈ opcodeRows, r.encoding = e := by
  cases e <;> simp [opcodeRows]

/-- An encoding is decoded from the values its row selects (R44). -/
theorem exists_decodeWord_iff (e : Encoding) (w : Word) :
    (∃ i, decodeWord e.tbit w = .ok i ∧ i.encoding = e) ↔ ∃ r ∈ opcodeRows, r.encoding = e ∧ r.selects e.tbit w = true := by
  constructor
  · rintro ⟨i, h, rfl⟩
    obtain ⟨hwf, -, rfl⟩ := decodeWord_eq_ok_iff.mp h
    obtain ⟨r, hr, henc⟩ := exists_row i.encoding
    exact ⟨r, hr, henc, (Laws.rowPattern i hwf r hr).mpr henc⟩
  · rintro ⟨r, hr, rfl, hsel⟩
    refine ⟨fieldsOf r.encoding w, decodeWord_eq_ok_iff.mpr ⟨fieldsOf_wf hr hsel, fieldsOf_tbit _ w, ?_⟩, ?_⟩
    · exact (encodeWord_fieldsOf hr hsel).symm
    · cases r.encoding <;> rfl

/-- Each row by its mask, its match and its further condition (R44). -/
theorem exists_decodeWord_iff_masks (w : Word) :
    ((∃ i, decodeWord false w = .ok i ∧ i.encoding = .a1) ↔
      w &&& 0x0F000000#32 = 0x0B000000#32 ∧ w.extractLsb' 28 4 ≠ 0b1111#4) ∧
    ((∃ i, decodeWord false w = .ok i ∧ i.encoding = .a2) ↔ w &&& 0xFE000000#32 = 0xFA000000#32) ∧
    ((∃ i, decodeWord true w = .ok i ∧ i.encoding = .t1) ↔ w &&& 0xF800D000#32 = 0xF000D000#32) ∧
    ((∃ i, decodeWord true w = .ok i ∧ i.encoding = .t2) ↔ w &&& 0xF800D000#32 = 0xF000C000#32) := by
  refine ⟨(exists_decodeWord_iff .a1 w).trans ?_, (exists_decodeWord_iff .a2 w).trans ?_,
    (exists_decodeWord_iff .t1 w).trans ?_, (exists_decodeWord_iff .t2 w).trans ?_⟩
  all_goals simp [opcodeRows, OpcodeRow.selects_iff, Encoding.tbit, condAllowed]

/-- Settles O1: each word is put through the decoder. -/
theorem writtenOutWordsDecode : Obligations.WrittenOutWordsDecode := by
  unfold Obligations.WrittenOutWordsDecode
  decide

end Sys2Proof
end

section
/-! PROOFS. What `exec` answers (R76, R77, log 10): a next state, a fault or a refusal, each exactly when. -/

namespace Sys2Proof.Machine

open Sys2Proof.Claim

/-! ### When an instruction executes -/

/-- `IT` admits an instruction outside an IT block and as the last of one (R57, D18). -/
theorem midITBlock_eq_false_iff (it : BitVec 8) : midITBlock it = false ↔ itAdmits it := by
  by_cases h : it.extractLsb' 0 4 = 0b0000#4 <;> simp [midITBlock, inITBlock, lastInITBlock, itAdmits, h]

theorem executes_iff {i : Instr} {s : State} :
    executes i s = true ↔ s.t = i.tbit ∧ undefinedEncoding i = false ∧ (i.tbit = true → itAdmits s.it) := by
  rw [← midITBlock_eq_false_iff]
  cases hi : i.tbit <;> simp [executes, and_assoc, hi]

theorem tbit_of_executes {i : Instr} {s : State} (h : executes i s = true) : s.t = i.tbit := by
  obtain ⟨ht, -, -⟩ := executes_iff.mp h
  exact ht

/-- In A32 state nothing stops an A32 instruction. -/
theorem executes_of_a32 {i : Instr} {s : State} (hi : i.tbit = false) (ht : s.t = false) : executes i s = true := by
  refine executes_iff.mpr ⟨ht.trans hi.symm, Bool.eq_false_iff.mpr fun hu => ?_, fun hi' => ?_⟩
  · exact absurd (tbit_of_undefinedEncoding hu) (by simp [hi])
  · exact absurd hi' (by simp [hi])

theorem exec_next_iff {i : Instr} {s : State} : (∃ s', exec i s = .next s') ↔ executes i s = true := by
  constructor
  · rintro ⟨s', h⟩
    obtain ⟨hexec, -⟩ := exec_next h
    exact hexec
  · exact fun h => ⟨_, exec_of_executes h⟩

/-! ### The four answers -/

/-- `exec` of an instruction of the other set (log 10). -/
theorem exec_of_tbit_ne {i : Instr} {s : State} (h : s.t ≠ i.tbit) :
    exec i s = .refused (.notDescribed (.otherInstrSet (encodeWord i))) := by
  have hexec : executes i s = false := by simp [executes, h]
  simp [exec_of_not_executes hexec, h]

/-- Inside an IT block and not last in it, T1 and T2 with `H = 0` are UNPREDICTABLE, whatever the condition (R75, R77). -/
theorem exec_of_not_itAdmits {i : Instr} {s : State} (ht : s.t = i.tbit) (hi : i.tbit = true)
    (hu : undefinedEncoding i = false) (hit : ¬ itAdmits s.it) : exec i s = .refused (.unpredictable (encodeWord i)) := by
  have hexec : executes i s = false := by
    rw [Bool.eq_false_iff, ne_eq, executes_iff]
    exact fun ⟨_, _, hadmits⟩ => hit (hadmits hi)
  simp [exec_of_not_executes hexec, ht, hu]

/-- Everything `exec` can answer, and when. -/
theorem exec_cases (i : Instr) (s : State) :
    (executes i s = true ∧ exec i s = .next (afterInstr i s)) ∨
    (s.t ≠ i.tbit ∧ exec i s = .refused (.notDescribed (.otherInstrSet (encodeWord i)))) ∨
    (s.t = true ∧ undefinedEncoding i = true ∧ exec i s = .fault (.undefined s.pc (encodeWord i))) ∨
    (s.t = true ∧ i.tbit = true ∧ undefinedEncoding i = false ∧ ¬ itAdmits s.it ∧
      exec i s = .refused (.unpredictable (encodeWord i))) := by
  by_cases hexec : executes i s = true
  · exact .inl ⟨hexec, exec_of_executes hexec⟩
  by_cases ht : s.t = i.tbit
  · cases hu : undefinedEncoding i with
    | true =>
      have ht := ht.trans (tbit_of_undefinedEncoding hu)
      exact .inr (.inr (.inl ⟨ht, rfl, exec_of_undefinedEncoding hu ht⟩))
    | false =>
      rw [executes_iff] at hexec
      obtain ⟨hi, hit⟩ : i.tbit = true ∧ ¬ itAdmits s.it := by simpa [ht, hu] using hexec
      exact .inr (.inr (.inr ⟨ht.trans hi, hi, rfl, hit, exec_of_not_itAdmits ht hi hu hit⟩))
  · exact .inr (.inl ⟨ht, exec_of_tbit_ne ht⟩)

/-- Settles O24: of the four answers of `exec` only the UNDEFINED encoding's is a fault. -/
theorem faultsExactlyWhenUndefined : Obligations.FaultsExactlyWhenUndefined := by
  intro i s f
  constructor
  · intro h
    obtain ⟨-, h'⟩ | ⟨-, h'⟩ | ⟨ht, hu, h'⟩ | ⟨-, -, -, -, h'⟩ := exec_cases i s <;> cases h.symm.trans h'
    exact ⟨ht, hu, rfl⟩
  · rintro ⟨ht, hu, rfl⟩
    exact exec_of_undefinedEncoding hu ht

/-- Settles O25: of the four answers of `exec` only that inside an IT block and not last in it is UNPREDICTABLE. -/
theorem unpredictableExactlyMidITBlock : Obligations.UnpredictableExactlyMidITBlock := by
  intro i s word
  constructor
  · intro h
    obtain ⟨-, h'⟩ | ⟨-, h'⟩ | ⟨-, -, h'⟩ | ⟨ht, hi, hu, hit, h'⟩ := exec_cases i s <;> cases h.symm.trans h'
    exact ⟨ht, hi, hu, hit, rfl⟩
  · rintro ⟨ht, hi, hu, hit, rfl⟩
    exact exec_of_not_itAdmits (ht.trans hi.symm) hi hu hit

/-- Settles O26: a next state is answered exactly when the instruction executes. -/
theorem execAnswersNextExactlyWhenItExecutes : Obligations.ExecAnswersNextExactlyWhenItExecutes :=
  fun _ _ => ⟨exec_next_iff.trans executes_iff, exec_of_tbit_ne⟩

end Sys2Proof.Machine
end

section
/-! PROOFS. The effects of the instructions (R55, R64 to R72): the whole state after each, the condition, the link value, the
target, and the frames. -/

namespace Sys2Proof.Machine

open Sys2Proof.Claim

/-! ### The condition (R55) -/

/-- `ConditionHolds` is the table of conditions written out (D3). -/
theorem conditionHolds_eq_condTable (cc : BitVec 4) (s : State) : conditionHolds cc s.n s.z s.c s.v = condTable cc s := by
  have table : ∀ (cc : BitVec 4) (n z c v : Bool),
      conditionHolds cc n z c v = condTable cc { State.reset with n := n, z := z, c := c, v := v } := by
    decide
  exact table cc s.n s.z s.c s.v

theorem conditionOf_of_t32 {i : Instr} (h : i.tbit = true) (it : BitVec 8) : conditionOf i it = itCondition it := by
  cases i with
  | blA1 | blxA2 => cases h
  | blT1 | blxT2 => rfl

/-- A2, and T1 and T2 outside an IT block, pass whatever the flags (R55). -/
theorem passes_of_unconditional {i : Instr} {s : State} (h : i.encoding = .a2 ∨ (i.tbit = true ∧ s.it = 0#8)) :
    passes i s = true := by
  obtain henc | ⟨hi, hit⟩ := h
  · cases i with
    | blxA2 => exact conditionHolds_eq_condTable condA2 s
    | blA1 | blT1 | blxT2 => cases henc
  · rw [passes, conditionOf_of_t32 hi, hit]
    exact conditionHolds_eq_condTable 0b1110#4 s

/-! ### The whole state after an instruction -/

theorem afterInstr_it (i : Instr) (s : State) : (afterInstr i s).it = if i.tbit then itAdvance s.it else s.it := by
  cases h : passes i s
  · rw [afterInstr_failed h]
    split <;> simp
  · rw [afterInstr_passed h]
    split <;> simp

/-- An instruction that executes ends its IT block (D16). -/
theorem afterInstr_it_of_executes {i : Instr} {s : State} (h : executes i s = true) :
    (afterInstr i s).it = if s.t then 0#8 else s.it := by
  obtain ⟨ht, -, hit⟩ := executes_iff.mp h
  rw [afterInstr_it, ← ht]
  cases hs : s.t
  · rfl
  · exact itAdvance_of_not_mid ((midITBlock_eq_false_iff s.it).mpr (hit (ht.symm.trans hs)))

/-- Everything an instruction writes: LR, `pc`, `T` and `IT`. -/
theorem afterInstr_eq (i : Instr) (s : State) :
    afterInstr i s =
      { s with
        regs := if passes i s then s.regs.set 14 s.linkValue else s.regs
        pc :=
          if passes i s then
            if targetSetOf i.encoding = .a32 then align4 (align4 s.pcRead + immOf i) else align2 (s.pcRead + immOf i)
          else s.pc + 4#32
        t := if passes i s then decide (targetSetOf i.encoding = .t32) else s.t
        it := if i.tbit then itAdvance s.it else s.it } := by
  obtain ⟨hn, hz, hc, hv, hmem, hmark⟩ := afterInstr_unwritten i s
  ext1
  · exact afterInstr_regs i s
  · exact afterInstr_pc i s
  · exact hn
  · exact hz
  · exact hc
  · exact hv
  · exact afterInstr_t i s
  · exact afterInstr_it i s
  · exact hmem
  · exact hmark

theorem afterInstr_of_failed {i : Instr} {s : State} (h : executes i s = true) (hp : passes i s = false) :
    afterInstr i s = { s with pc := s.pc + 4#32, it := if s.t then 0#8 else s.it } := by
  rw [afterInstr_eq, ← afterInstr_it, afterInstr_it_of_executes h, hp]
  rfl

/-- Settles O27: the state after an instruction whose condition failed, field by field. -/
theorem failedConditionMovesPcOnly : Obligations.FailedConditionMovesPcOnly := by
  intro i s h hp
  rw [exec_of_executes h, afterInstr_of_failed h hp]

/-! ### Alignment -/

theorem even_of_pcAligned {t : Bool} {pc : Word} (h : pcAligned t pc = true) : pc.toNat % 2 = 0 := by
  rw [pcAligned_iff] at h
  cases t <;> simp at h <;> omega

/-- From an aligned `pc`, `targetAddress` is aligned for the target set: `PC` and `imm32` are (R40 to R43). -/
theorem targetAddress_aligned (i : Instr) {s : State} (ha : pcAligned s.t s.pc = true) :
    pcAligned (decide (targetSetOf i.encoding = .t32)) (s.targetAddress (targetSetOf i.encoding) (immOf i)) = true := by
  have himm := immOf_mod i
  have heven := even_of_pcAligned ha
  rw [pcAligned_iff]
  obtain htarget | htarget := targetSetOf_eq i.encoding
  · have hbase := align4_mod s.pcRead
    simp only [htarget, if_true, reduceCtorEq, decide_false, State.targetAddress, BitVec.toNat_add, Bool.false_eq_true,
      if_false] at himm ⊢
    omega
  · have hbase : s.pcRead.toNat % 2 = 0 := by
      rw [State.pcRead_eq, BitVec.toNat_add]
      cases s.t <;> simp <;> omega
    simp only [htarget, if_true, reduceCtorEq, decide_true, State.targetAddress, BitVec.toNat_add, if_false] at himm ⊢
    omega

/-- From an aligned `pc`, `BranchWritePC` forces nothing (`[derived]` in the spec). -/
theorem afterInstr_pc_of_passed {i : Instr} {s : State} (hp : passes i s = true) (ha : pcAligned s.t s.pc = true) :
    (afterInstr i s).pc = s.targetAddress (targetSetOf i.encoding) (immOf i) := by
  have haligned := targetAddress_aligned i ha
  rw [afterInstr_pc, if_pos hp]
  obtain htarget | htarget := targetSetOf_eq i.encoding <;> rw [htarget] at haligned ⊢
  · exact align4_of_mod (pcAligned_a32.mp haligned)
  · exact align2_of_mod (pcAligned_t32.mp haligned)

/-- Whether its condition passes or fails, an instruction takes an aligned `pc` to one aligned for the new `T`. -/
theorem afterInstr_aligned (i : Instr) {s : State} (ha : pcAligned s.t s.pc = true) :
    pcAligned (afterInstr i s).t (afterInstr i s).pc = true := by
  cases hp : passes i s
  · rw [pcAligned_iff] at ha ⊢
    simp only [afterInstr_t, afterInstr_pc, hp, Bool.false_eq_true, if_false, BitVec.toNat_add, BitVec.toNat_ofNat]
    cases ht : s.t <;> simp only [ht, Bool.false_eq_true, if_false, if_true] at ha ⊢ <;> omega
  · rw [afterInstr_pc_of_passed hp ha, afterInstr_t, if_pos hp]
    exact targetAddress_aligned i ha

/-- Settles O30: from an aligned `pc` nothing is forced, and every instruction that executes leaves `pc` aligned. -/
theorem targetIsAlreadyAligned : Obligations.TargetIsAlreadyAligned :=
  fun i _ h hp ha => ⟨_, exec_of_executes h, afterInstr_pc_of_passed hp ha, afterInstr_aligned i ha⟩

/-! ### The link value (R70) -/

theorem setBit0_eq_or (x : Word) : x.extractLsb' 1 31 ++ 1#1 = x ||| 1#32 := by
  refine BitVec.eq_of_getLsbD_eq fun k hk => ?_
  rw [BitVec.getLsbD_append, BitVec.getLsbD_or]
  cases k with
  | zero => simp
  | succ k =>
    simp [BitVec.getLsbD_one, Nat.add_comm 1 k]
    omega

theorem setBit0_toNat (x : Word) : (x.extractLsb' 1 31 ++ 1#1).toNat = x.toNat / 2 * 2 + 1 := by
  have hx := x.isLt
  refine (append_toNat (x.extractLsb' 1 31) 1#1).trans ?_
  rw [field_toNat]
  simp
  omega

theorem linkValue_of_a32 {s : State} (h : s.t = false) : s.linkValue = s.pc + 4#32 := by
  rw [State.linkValue_eq, State.pcRead_eq, h]
  simp only [Bool.false_eq_true, if_false]
  bv_omega

theorem linkValue_of_t32 {s : State} (h : s.t = true) : s.linkValue = (s.pc + 4#32) ||| 1#32 := by
  simp [State.linkValue_eq, State.pcRead_eq, h, setBit0_eq_or]

theorem linkValue_toNat_of_t32 {s : State} (h : s.t = true) :
    s.linkValue.toNat = (s.pc + 4#32).toNat / 2 * 2 + 1 := by
  rw [linkValue_of_t32 h, ← setBit0_eq_or, setBit0_toNat]

theorem and_clearBit0 (x : Word) : x &&& 0xFFFFFFFE#32 = align2 x := by
  have h := and_mask_toNat x.toNat 1 31
  have hx := x.isLt
  refine BitVec.eq_of_toNat_eq ?_
  rw [align2_toNat, BitVec.toNat_and]
  simp at h ⊢
  omega

/-- Bit 0 of the link value tells the caller's instruction set; from an aligned `pc` the other bits are those of `pc + 4` (R70). -/
theorem linkValue_bits {s : State} (ha : pcAligned s.t s.pc = true) :
    s.linkValue.getLsbD 0 = s.t ∧ s.linkValue &&& 0xFFFFFFFE#32 = s.pc + 4#32 := by
  have heven : (s.pc + 4#32).toNat % 2 = 0 := by
    have := even_of_pcAligned ha
    rw [BitVec.toNat_add]
    simp
    omega
  rw [and_clearBit0]
  cases ht : s.t
  · rw [linkValue_of_a32 ht]
    exact ⟨by simp [BitVec.getLsbD, Nat.testBit_zero, -BitVec.toNat_add, heven], align2_of_mod heven⟩
  · refine ⟨by simp [linkValue_of_t32 ht], BitVec.eq_of_toNat_eq ?_⟩
    rw [align2_toNat, linkValue_toNat_of_t32 ht]
    omega

/-- Settles O29: LR is the link value. -/
theorem linkValueIsReturnAddressAndSet : Obligations.LinkValueIsReturnAddressAndSet := by
  intro i s h hp ha
  refine ⟨_, exec_of_executes h, ?_⟩
  rw [afterInstr_lr, if_pos hp]
  exact linkValue_bits ha

/-! ### The four encodings from an aligned `pc` -/

theorem afterInstr_of_passed {i : Instr} {s : State} (h : executes i s = true) (hp : passes i s = true)
    (ha : pcAligned s.t s.pc = true) :
    afterInstr i s =
      { s with
        regs := s.regs.set 14 s.linkValue
        pc := s.targetAddress (targetSetOf i.encoding) (immOf i)
        t := decide (targetSetOf i.encoding = .t32)
        it := if s.t then 0#8 else s.it } := by
  rw [afterInstr_eq, ← afterInstr_pc, ← afterInstr_it, afterInstr_pc_of_passed hp ha, afterInstr_it_of_executes h, hp]
  rfl

/-- The whole effect of an instruction that executes from an aligned `pc`. -/
theorem exec_of_aligned {i : Instr} {s : State} (h : executes i s = true) (ha : pcAligned s.t s.pc = true) :
    exec i s =
      .next (if passes i s then
        { s with
          regs := s.regs.set 14 s.linkValue
          pc := s.targetAddress (targetSetOf i.encoding) (immOf i)
          t := decide (targetSetOf i.encoding = .t32)
          it := if s.t then 0#8 else s.it }
      else { s with pc := s.pc + 4#32, it := if s.t then 0#8 else s.it }) := by
  rw [exec_of_executes h]
  cases hp : passes i s
  · rw [afterInstr_of_failed h hp]
    rfl
  · rw [afterInstr_of_passed h hp ha]
    rfl

theorem align4_eq_and (x : Word) : align4 x = x &&& 0xFFFFFFFC#32 := by
  have h := and_mask_toNat x.toNat 2 30
  have hx := x.isLt
  refine BitVec.eq_of_toNat_eq ?_
  rw [align4_toNat, BitVec.toNat_and]
  simp at h ⊢
  omega

/-- Settles O18: the whole effect, with A1's link value and target; `Align(PC,4)` is `PC` at an aligned `pc`. -/
theorem blA1Result : Obligations.BlA1Result := by
  intro cond imm24 s ht hpc
  have hbase : align4 (s.pc + 8#32) = s.pc + 8#32 := align4_of_mod (by rw [BitVec.toNat_add]; simp; omega)
  rw [exec_of_aligned (executes_of_a32 rfl ht) (ht ▸ pcAligned_a32.mpr hpc)]
  simp [passes, State.conditionPassed, conditionOf, linkValue_of_a32 ht, State.targetAddress, targetSetOf, Instr.encoding,
    immOf, imm32A1, State.pcRead_eq, ht, hbase]

/-- Settles O19: the whole effect, with A2's link value and target; the condition 1111 passes whatever the flags. -/
theorem blxA2Result : Obligations.BlxA2Result := by
  intro H imm24 s ht hpc
  have hpass : passes (.blxA2 H imm24) s = true := passes_of_unconditional (.inl rfl)
  rw [exec_of_aligned (executes_of_a32 rfl ht) (ht ▸ pcAligned_a32.mpr hpc)]
  simp [hpass, linkValue_of_a32 ht, State.targetAddress, targetSetOf, Instr.encoding, immOf, imm32A2, State.pcRead_eq, ht]

/-- Settles O20: the whole effect, with T1's link value and target. -/
theorem blT1Result : Obligations.BlT1Result := by
  intro S imm10 J1 J2 imm11 s ht hpc hit
  rw [exec_of_aligned (executes_iff.mpr ⟨ht, rfl, fun _ => hit⟩) (ht ▸ pcAligned_t32.mpr hpc)]
  simp [passes, State.conditionPassed, conditionOf, itCondition_eq, linkValue_of_t32 ht, State.targetAddress, targetSetOf,
    Instr.encoding, immOf, imm32T1, iBit, State.pcRead_eq, ht]

/-- Settles O21: the whole effect, with T2's link value and target, measured from `Align(PC,4)`. -/
theorem blxT2Result : Obligations.BlxT2Result := by
  intro S imm10H J1 J2 imm10L s ht hpc hit
  rw [exec_of_aligned (executes_iff.mpr ⟨ht, rfl, fun _ => hit⟩) (ht ▸ pcAligned_t32.mpr hpc)]
  simp [passes, State.conditionPassed, conditionOf, itCondition_eq, linkValue_of_t32 ht, State.targetAddress, targetSetOf,
    Instr.encoding, immOf, imm32T2, iBit, State.pcRead_eq, align4_eq_and, ht]

/-- Settles O31: the link value and the aligned base of a T2, at `pc` and at `pc + 2`. -/
theorem t2TargetIgnoresTheHalfword : Obligations.T2TargetIgnoresTheHalfword := by
  intro i s henc h hp hpc
  have ht : s.t = true := by rw [tbit_of_executes h, Instr.tbit, henc]; rfl
  have hp2 : passes i { s with pc := s.pc + 2#32 } = true := hp
  refine ⟨_, _, exec_of_executes h, exec_of_executes (i := i) (s := { s with pc := s.pc + 2#32 }) h, ?_, ?_⟩
  · have hbase : align4 (s.pc + 2#32 + 4#32) = align4 (s.pc + 4#32) := by
      refine BitVec.eq_of_toNat_eq ?_
      simp only [align4_toNat, BitVec.toNat_add, BitVec.toNat_ofNat]
      omega
    rw [afterInstr_pc, if_pos hp, afterInstr_pc, if_pos hp2]
    simp [henc, targetSetOf, State.pcRead_eq, ht, hbase]
  · rw [afterInstr_lr, if_pos hp2, afterInstr_lr, if_pos hp]
    refine BitVec.eq_of_toNat_eq ?_
    rw [linkValue_toNat_of_t32 (s := { s with pc := s.pc + 2#32 }) ht, BitVec.toNat_add s.linkValue,
      linkValue_toNat_of_t32 ht]
    simp only [BitVec.toNat_add, BitVec.toNat_ofNat]
    omega

/-- Settles O22: A1 passes as the table says, and LR and `pc` follow the condition. -/
theorem conditionalA1FollowsTheTable : Obligations.ConditionalA1FollowsTheTable := by
  intro cond imm24 s ht
  have hpass : passes (.blA1 cond imm24) s = condTable cond s := conditionHolds_eq_condTable cond s
  refine ⟨_, exec_of_executes (executes_of_a32 rfl ht), fun h => ?_, fun h => ?_⟩
  · simp [afterInstr_lr, afterInstr_pc, hpass, h, State.linkValue_eq, ht, Instr.encoding, targetSetOf]
  · simp [afterInstr_lr, afterInstr_pc, hpass, h]

/-- Settles O23: LR follows the condition, which `IT` gives. -/
theorem t32ConditionComesFromIT : Obligations.T32ConditionComesFromIT := by
  intro i s hi hu ht hit
  have hpass : passes i s = condTable (itCondition s.it) s := by
    rw [← conditionOf_of_t32 hi]
    exact conditionHolds_eq_condTable _ s
  refine ⟨_, exec_of_executes (executes_iff.mpr ⟨ht.trans hi.symm, hu, fun _ => hit⟩), fun h => ?_, fun h => ?_⟩
  · have hal : condTable 0b1110#4 s = true := rfl
    simp [afterInstr_lr, hpass, itCondition_eq, h, hal]
  · simp [afterInstr_lr, hpass, itCondition_eq, h]

/-! ### Frames -/

theorem targetSetOf_exchanges_iff (e : Encoding) : decide (targetSetOf e = .t32) ≠ e.tbit ↔ e = .a2 ∨ e = .t2 := by
  cases e <;> decide

/-- Settles O28: `T` becomes the target set's, which is the other set for A2 and T2 alone. -/
theorem exchangeExactlyOnTakenBlx : Obligations.ExchangeExactlyOnTakenBlx := by
  intro i s h
  refine ⟨_, exec_of_executes h, ?_⟩
  rw [afterInstr_t, ← targetSetOf_exchanges_iff, ← Instr.tbit, ← tbit_of_executes h]
  cases hp : passes i s <;> simp

/-- Settles O32: a next state is `afterInstr`; what each of its fields is. -/
theorem execFrame : Obligations.ExecFrame := by
  intro i s s' h
  obtain ⟨hexec, rfl⟩ := exec_next h
  obtain ⟨hn, hz, hc, hv, hmem, hmark⟩ := afterInstr_unwritten i s
  refine ⟨fun j hj => afterInstr_reg_other i s hj, fun hp => by simp [afterInstr_lr, hp], hn, hz, hc, hv,
    fun a => by simp [State.fetchByte, hmem], hmark, ?_, fun ht => by simp [afterInstr_it_of_executes hexec, ht]⟩
  have ht := tbit_of_executes hexec
  rw [afterInstr_t]
  rintro (henc | henc | hp)
  · simp [ht, Instr.tbit, henc, targetSetOf, Encoding.tbit]
  · simp [ht, Instr.tbit, henc, targetSetOf, Encoding.tbit]
  · simp [hp]

/-- Two states that agree on `T`, `pc` and `IT` get the same kind of outcome from an instruction. -/
theorem exec_eq_mapNext {i : Instr} {s s₂ : State} {f : State → State} (ht : s₂.t = s.t) (hpc : s₂.pc = s.pc)
    (hit : s₂.it = s.it) (hafter : afterInstr i s₂ = f (afterInstr i s)) : exec i s₂ = mapNext f (exec i s) := by
  have hexec : executes i s₂ = executes i s := by simp [executes, ht, hit]
  cases h : executes i s
  · rw [exec_of_not_executes h, exec_of_not_executes (hexec.trans h), ht, hpc]
    by_cases ht' : s.t = i.tbit
    · cases hu : undefinedEncoding i <;> simp [ht', mapNext]
    · simp [ht', mapNext]
  · rw [exec_of_executes h, exec_of_executes (hexec.trans h), hafter]
    rfl

theorem afterInstr_withRegs (i : Instr) (s : State) (r : Vector Word 15) :
    afterInstr i { s with regs := r } =
      { afterInstr i s with regs := if passes i s then r.set 14 (afterInstr i s).lr else r } := by
  have hpass : passes i { s with regs := r } = passes i s := rfl
  have hlink : { s with regs := r }.linkValue = s.linkValue := rfl
  have hread : { s with regs := r }.pcRead = s.pcRead := rfl
  rw [afterInstr_lr, afterInstr_eq, afterInstr_eq i s, hpass, hlink, hread]
  cases passes i s <;> rfl

/-- Settles O34: the condition, the link value and the target are read from other fields. -/
theorem execReadsNoRegister : Obligations.ExecReadsNoRegister :=
  fun i s r => exec_eq_mapNext rfl rfl rfl (afterInstr_withRegs i s r)

theorem afterInstr_withFlags {i : Instr} {s : State} (n z c v : Bool)
    (h : i.encoding = .a2 ∨ (i.tbit = true ∧ s.it = 0#8)) :
    afterInstr i { s with n := n, z := z, c := c, v := v } = { afterInstr i s with n := n, z := z, c := c, v := v } := by
  have hpass := passes_of_unconditional h
  have hpass' : passes i { s with n := n, z := z, c := c, v := v } = true := passes_of_unconditional h
  have hlink : { s with n := n, z := z, c := c, v := v }.linkValue = s.linkValue := rfl
  have hread : { s with n := n, z := z, c := c, v := v }.pcRead = s.pcRead := rfl
  rw [afterInstr_eq, afterInstr_eq i s, hpass, hpass', hlink, hread]

/-- Settles O35: the flags are read by the condition alone, which these instructions pass. -/
theorem unconditionalCallsIgnoreTheFlags : Obligations.UnconditionalCallsIgnoreTheFlags :=
  fun _ _ n z c v h => exec_eq_mapNext rfl rfl rfl (afterInstr_withFlags n z c v h)

end Sys2Proof.Machine
end

section
/-! PROOFS. The step (R68): what it answers by the mark, the checks of the state, the fetch and the decoder. -/

namespace Sys2Proof.Machine

open Sys2Proof.Claim

/-! ### A step, check by check -/

section Checks

variable {s : State}

theorem step_of_mark {m : Mark} (hm : s.mark = some m) : step s = m.stop.outcome := by
  simp [step, State.fetchInstr, hm]

theorem step_of_illegality {why : NotDescribed} (hm : s.mark = none) (hi : s.illegality = some why) :
    step s = .refused (.notDescribed why) := by
  simp [step, State.fetchInstr, hm, hi, Stop.outcome]

theorem step_of_fetchWord_error {stop : Stop} (hm : s.mark = none) (hi : s.illegality = none)
    (hw : s.fetchWord = .error stop) : step s = stop.outcome := by
  simp [step, State.fetchInstr, hm, hi, hw]

theorem step_of_decodeWord_error {w : Word} {why : Undecoded} (hm : s.mark = none) (hi : s.illegality = none)
    (hw : s.fetchWord = .ok w) (hd : decodeWord s.t w = .error why) : step s = .refused (.notDescribed (.noRow w)) := by
  simp [step, State.fetchInstr_of_fetchWord hm hi hw, hd, Stop.outcome]

theorem step_of_decodeWord_ok {w : Word} {i : Instr} (hm : s.mark = none) (hi : s.illegality = none)
    (hw : s.fetchWord = .ok w) (hd : decodeWord s.t w = .ok i) : step s = exec i s := by
  simp [step, State.fetchInstr_of_fetchWord hm hi hw, hd]

end Checks

/-! ### The checks of the state -/

/-- The legal values of `IT` (R21) as the model tests them. -/
theorem itLegal_iff (t : Bool) (it : BitVec 8) :
    itLegal t it = true ↔ it = 0#8 ∨ (t = true ∧ it.extractLsb' 0 4 ≠ 0#4) := by
  simp [itLegal, inITBlock]

theorem illegality_eq_none_iff (s : State) : s.illegality = none ↔ legal s := by
  rw [State.illegality_none, pcAligned_iff, itLegal_iff, legal]

/-- Settles O6: a row is decoded from the values it selects, and a fetched value without a row ends the step. -/
theorem opcodeMapSelectsByMaskAndMatch : Obligations.OpcodeMapSelectsByMaskAndMatch := by
  refine ⟨exists_decodeWord_iff_masks, fun s w hm hlegal hw hnone => ?_⟩
  cases hd : decodeWord s.t w with
  | ok i => exact absurd hd (hnone i)
  | error why => exact step_of_decodeWord_error hm ((illegality_eq_none_iff s).mpr hlegal) hw hd

/-- Settles O36: the four bytes make the fetched word, and the step is `exec` of what it decodes to. -/
theorem stepRunsTheDecodedInstruction : Obligations.StepRunsTheDecodedInstruction := by
  rintro s b0 b1 b2 b3 i hm hlegal ⟨h0, h1, h2, h3⟩ hdec
  obtain ⟨hdec, -⟩ := decodeBytes_eq_ok_iff.mp hdec
  exact step_of_decodeWord_ok hm ((illegality_eq_none_iff s).mpr hlegal) (State.fetchWord_of_bytes h0 h1 h2 h3) hdec

/-- Settles O37: the alignment of `pc` is tested before `IT`. -/
theorem stepRefusesIllegalStates : Obligations.StepRefusesIllegalStates := by
  intro s hm hillegal
  refine step_of_illegality hm ?_
  rw [← illegality_eq_none_iff, State.illegality_none] at hillegal
  simp only [← pcAligned_iff, State.illegality]
  cases ha : pcAligned s.t s.pc
  · rfl
  · have hit : itLegal s.t s.it = false := by simpa [ha] using hillegal
    simp [hit]

/-! ### The fetch -/

theorem State.fetchByteOrStop_of_ne_none {s : State} {a : Word} (h : s.fetchByte a ≠ none) :
    ∃ b, s.fetchByteOrStop a = .ok b := by
  obtain ⟨b, hb⟩ := Option.ne_none_iff_exists'.mp h
  exact ⟨b, by simp [State.fetchByteOrStop, hb]⟩

theorem State.fetchByteOrStop_of_none {s : State} {a : Word} (h : s.fetchByte a = none) :
    s.fetchByteOrStop a = .error (.fault (.stuck a)) := by
  simp [State.fetchByteOrStop, h]

/-- The fetch reads the lowest address first, and names the first one that has no byte (log 13). -/
theorem State.fetchWord_of_missing {s : State} {k : Nat} (hk : k < 4)
    (hbefore : ∀ j < k, s.fetchByte (s.pc + BitVec.ofNat 32 j) ≠ none)
    (hmissing : s.fetchByte (s.pc + BitVec.ofNat 32 k) = none) :
    s.fetchWord = .error (.fault (.stuck (s.pc + BitVec.ofNat 32 k))) := by
  have present (j : Nat) (hj : j < k) := State.fetchByteOrStop_of_ne_none (hbefore j hj)
  have missing := State.fetchByteOrStop_of_none hmissing
  have first : s.pc + BitVec.ofNat 32 0 = s.pc := BitVec.add_zero _
  match k, hk with
  | 0, _ =>
    rw [first] at missing ⊢
    simp [State.fetchWord, missing]
  | 1, _ =>
    obtain ⟨b0, h0⟩ := present 0 (by decide)
    rw [first] at h0
    simp [State.fetchWord, h0, missing]
  | 2, _ =>
    obtain ⟨b0, h0⟩ := present 0 (by decide)
    obtain ⟨b1, h1⟩ := present 1 (by decide)
    rw [first] at h0
    simp [State.fetchWord, h0, h1, missing]
  | 3, _ =>
    obtain ⟨b0, h0⟩ := present 0 (by decide)
    obtain ⟨b1, h1⟩ := present 1 (by decide)
    obtain ⟨b2, h2⟩ := present 2 (by decide)
    rw [first] at h0
    simp [State.fetchWord, h0, h1, h2, missing]

/-- Settles O38: a fetch that meets a missing byte is the step's fault. -/
theorem stepIsStuckWithoutAByte : Obligations.StepIsStuckWithoutAByte :=
  fun s _ hm hlegal hk hbefore hmissing =>
    step_of_fetchWord_error hm ((illegality_eq_none_iff s).mpr hlegal) (State.fetchWord_of_missing hk hbefore hmissing)

/-! ### The loader (log 4) -/

/-- A word of the page tells the set it is loaded for: only its own row selects it (R44). -/
theorem tableSet_encodeWord {i : Instr} (hwf : i.wf = true) : tableSet (encodeWord i) = some i.tbit := by
  unfold tableSet
  cases hfind : opcodeRows.find? (fun r => r.selects r.encoding.tbit (encodeWord i)) with
  | none =>
    obtain ⟨r, hr, henc⟩ := exists_row i.encoding
    have hsel := (Laws.rowPattern i hwf r hr).mpr henc
    rw [Instr.tbit, ← henc] at hsel
    exact absurd hsel (List.find?_eq_none.mp hfind r hr)
  | some r =>
    have hsel := List.find?_some hfind
    have hword := encodeWord_fieldsOf (List.mem_of_find?_eq_some hfind) hsel
    rw [Option.map_some, ← tbit_eq_of_encodeWord_eq hword, fieldsOf_tbit]

theorem withFetchWord_encodeWord {i : Instr} (hwf : i.wf = true) (s : State) :
    s.withFetchWord 32 (encodeWord i).toNat = s.placeWord i.tbit (encodeWord i) := by
  have hword : tableWord 32 (encodeWord i).toNat = encodeWord i := by
    simp [tableWord, Nat.mod_eq_of_lt (encodeWord i).isLt]
  rw [State.withFetchWord, State.placeTableWord, hword, tableSet_encodeWord hwf]

/-- A word placed at `pc` is the word fetched there. -/
theorem fetchWord_placeWord (s : State) (t : Bool) (w : Word) : (s.placeWord t w).fetchWord = .ok w := by
  obtain ⟨b0, b1, b2, b3, hbytes, hword⟩ := wordOfBytes_bytesOfWord t w
  obtain ⟨h0, h1, h2, h3⟩ := read_loadBytes_four s.mem s.pc b0 b1 b2 b3
  rw [← hbytes] at h0 h1 h2 h3
  rw [State.fetchWord_of_bytes (s := s.placeWord t w) h0 h1 h2 h3, State.placeWord_t, hword]

/-- Settles O39: the loader places the encoding for its own set, and the step fetches and decodes it back. -/
theorem placedInstructionIsWhatStepRuns : Obligations.PlacedInstructionIsWhatStepRuns := by
  intro i s hwf hm ha hit
  rw [withFetchWord_encodeWord hwf]
  refine step_of_decodeWord_ok hm (State.illegality_none.mpr ⟨ha, ?_⟩) (fetchWord_placeWord s _ _) (decodeWord_encodeWord hwf)
  cases hi : i.tbit
  · rfl
  · simpa [hi] using hit hi

/-! ### Everything a step can answer -/

/-- A fetch of an instruction that stops is stuck at an address, or stops as a mark records (R11). -/
theorem State.fetchInstr_error {s : State} {stop : Stop} (h : s.fetchInstr = .error stop) :
    (∃ addr, stop = .fault (.stuck addr)) ∨ ∃ m : Mark, stop = m.stop := by
  unfold State.fetchInstr at h
  split at h
  · next m _ => exact .inr ⟨m, (Except.error.inj h).symm⟩
  · split at h
    · next why _ => exact .inr ⟨.notDescribed why, (Except.error.inj h).symm⟩
    · split at h
      · next hw =>
        cases h
        exact .inl (State.fetchWord_error hw)
      · next w _ =>
        split at h
        · cases h
        · exact .inr ⟨.notDescribed (.noRow w), (Except.error.inj h).symm⟩

/-- A step answers a next state, is stuck, or stops as a mark records (R11): no other refusal is met. -/
theorem step_cases (s : State) :
    (∃ s', step s = .next s') ∨ (∃ addr, step s = .fault (.stuck addr)) ∨ ∃ m : Mark, step s = m.stop.outcome := by
  unfold step
  split
  · next i _ =>
    obtain ⟨-, h⟩ | ⟨-, h⟩ | ⟨-, -, h⟩ | ⟨-, -, -, -, h⟩ := exec_cases i s
    · exact .inl ⟨_, h⟩
    · exact .inr (.inr ⟨.notDescribed _, h⟩)
    · exact .inr (.inr ⟨.undefined _ _, h⟩)
    · exact .inr (.inr ⟨.unpredictable _, h⟩)
  · next hfetch =>
    obtain ⟨addr, rfl⟩ | ⟨m, rfl⟩ := State.fetchInstr_error hfetch
    · exact .inr (.inl ⟨addr, rfl⟩)
    · exact .inr (.inr ⟨m, rfl⟩)

end Sys2Proof.Machine
end

section
/-! PROOFS. Invariants and runs (R11, R21, R68): what every step keeps, what every run keeps, and the outcome mark. -/

namespace Sys2Proof.Machine

open Sys2Proof.Claim

/-! ### A step that answers a next state -/

/-- A step starts from a state the spec gives a meaning, with a clear mark, and runs one instruction to its end. -/
theorem step_next_of_legal {s s' : State} (h : step s = .next s') :
    s.mark = none ∧ pcAligned s.t s.pc = true ∧ itLegal s.t s.it = true ∧
      ∃ i, executes i s = true ∧ s' = afterInstr i s := by
  obtain ⟨i, hfetch, hexec, hs'⟩ := step_next h
  obtain ⟨hm, hi, -⟩ := State.fetchInstr_ok hfetch
  obtain ⟨ha, hit⟩ := State.illegality_none.mp hi
  exact ⟨hm, ha, hit, i, hexec, hs'⟩

/-- Settles O42: in T32 state the instruction ends its IT block, and in A32 state `IT` was zero before it. -/
theorem stepLeavesITZero : Obligations.StepLeavesITZero := by
  intro s s' h
  obtain ⟨-, -, hit, i, hexec, rfl⟩ := step_next_of_legal h
  rw [afterInstr_it_of_executes hexec]
  cases ht : s.t
  · simpa [itLegal_iff, ht] using hit
  · rfl

theorem step_keeps_legality {s s' : State} (h : step s = .next s') :
    pcAligned s'.t s'.pc = true ∧ itLegal s'.t s'.it = true := by
  have hit' := stepLeavesITZero s s' h
  obtain ⟨-, ha, -, i, -, rfl⟩ := step_next_of_legal h
  exact ⟨afterInstr_aligned i ha, (itLegal_iff _ _).mpr (.inl hit')⟩

/-- Settles O40: `pc` and `IT` are legal after every completed step, and no instruction writes the program or the mark. -/
theorem stepKeepsTheStateLegal : Obligations.StepKeepsTheStateLegal := by
  intro s s' hinv h
  obtain ⟨ha, hit⟩ := step_keeps_legality h
  obtain ⟨-, -, -, i, -, rfl⟩ := step_next_of_legal h
  obtain ⟨-, -, -, -, hmem, hmark⟩ := afterInstr_unwritten i s
  exact ⟨ha, hit, hmem.symm ▸ hinv.program, hmark.trans hinv.clear⟩

/-- Settles O41: each part of the invariant is evaluated at reset, and the first byte is missing. -/
theorem resetStateIsLegal : Obligations.ResetStateIsLegal :=
  ⟨⟨by decide, by decide, State.reset_wf, rfl⟩, rfl⟩

/-! ### Runs -/

/-- What every run keeps, from the state at its start to one later: R0 to R13, the flags, P_PROGRAM, and the legality of `pc` and
`IT`. -/
structure State.Keeps (s s' : State) : Prop where
  regs : ∀ j : Fin 15, j ≠ 14 → s'.reg j = s.reg j
  flags : s'.n = s.n ∧ s'.z = s.z ∧ s'.c = s.c ∧ s'.v = s.v
  program : s'.mem = s.mem
  legality : pcAligned s.t s.pc = true ∧ itLegal s.t s.it = true → pcAligned s'.t s'.pc = true ∧ itLegal s'.t s'.it = true

theorem State.Keeps.refl (s : State) : s.Keeps s := ⟨fun _ _ => rfl, ⟨rfl, rfl, rfl, rfl⟩, rfl, id⟩

theorem State.Keeps.trans {s₁ s₂ s₃ : State} (h : s₁.Keeps s₂) (h' : s₂.Keeps s₃) : s₁.Keeps s₃ where
  regs j hj := (h'.regs j hj).trans (h.regs j hj)
  flags := by
    obtain ⟨hn, hz, hc, hv⟩ := h.flags
    obtain ⟨hn', hz', hc', hv'⟩ := h'.flags
    exact ⟨hn'.trans hn, hz'.trans hz, hc'.trans hc, hv'.trans hv⟩
  program := h'.program.trans h.program
  legality := h'.legality ∘ h.legality

theorem State.Keeps.setMark (s : State) (m : Option Mark) : s.Keeps { s with mark := m } :=
  ⟨fun _ _ => rfl, ⟨rfl, rfl, rfl, rfl⟩, rfl, id⟩

theorem step_keeps {s s' : State} (h : step s = .next s') : s.Keeps s' := by
  have hlegal := step_keeps_legality h
  obtain ⟨-, -, -, i, -, rfl⟩ := step_next_of_legal h
  obtain ⟨hn, hz, hc, hv, hmem, -⟩ := afterInstr_unwritten i s
  exact ⟨fun j hj => afterInstr_reg_other i s hj, ⟨hn, hz, hc, hv⟩, hmem, fun _ => hlegal⟩

theorem runStep_keeps (s : State) : s.Keeps (runStep s) := by
  unfold runStep
  split
  · next h => exact step_keeps h
  · exact State.Keeps.setMark s _
  · exact State.Keeps.setMark s _

theorem runSteps_keeps (k : Nat) (s : State) : s.Keeps (runSteps k s) := by
  induction k generalizing s with
  | zero => exact .refl s
  | succ k ih => exact (runStep_keeps s).trans (ih (runStep s))

/-- Settles O43, by induction on the number of steps. -/
theorem runKeepsRegistersFlagsAndProgram : Obligations.RunKeepsRegistersFlagsAndProgram := by
  intro k s
  obtain ⟨hregs, ⟨hn, hz, hc, hv⟩, hmem, hlegal⟩ := runSteps_keeps k s
  exact ⟨hregs, hn, hz, hc, hv, hmem, hlegal⟩

/-! ### The outcome mark -/

/-- A stop that a mark records is written as that mark. -/
theorem runStep_of_step_mark {s : State} {m : Mark} (h : step s = m.stop.outcome) : runStep s = { s with mark := some m } := by
  cases m <;> simp [runStep, h, Mark.stop, Stop.outcome, Fault.mark, Refusal.mark]

/-- Being stuck changes nothing (R25). -/
theorem runStep_of_step_stuck {s : State} {addr : Word} (h : step s = .fault (.stuck addr)) :
    runStep s = { s with mark := none } := by
  simp [runStep, h, Fault.mark]

theorem runSteps_of_mark {s : State} {m : Mark} (hm : s.mark = some m) (k : Nat) : runSteps k s = s := by
  have hstay : runStep s = s := (runStep_of_step_mark (step_of_mark hm)).trans (by rw [← hm])
  induction k with
  | zero => rfl
  | succ k ih => rw [runSteps, hstay, ih]

theorem safeFor_succ_of_stop {s : State} {stop : Stop} (h : step s = stop.outcome) (k : Nat) : safeFor (k + 1) s = false := by
  cases stop <;> simp [safeFor, h, Stop.outcome]

/-- Settles O44: a marked state answers the stop of its mark, which a run writes as the same mark. -/
theorem markIsNeverCleared : Obligations.MarkIsNeverCleared :=
  fun _ _ hm => ⟨step_of_mark hm, runSteps_of_mark hm, safeFor_succ_of_stop (step_of_mark hm)⟩

/-- Settles O45: a step without a next state is stuck, or stops as a mark records, and the run writes that mark. -/
theorem stopsWriteTheMarkOnly : Obligations.StopsWriteTheMarkOnly := by
  intro s _ hstop
  obtain ⟨s', h⟩ | ⟨addr, h⟩ | ⟨m, h⟩ := step_cases s
  · exact absurd h (hstop s')
  · exact ⟨none, runStep_of_step_stuck h, by simp [h]⟩
  · refine ⟨some m, runStep_of_step_mark h, ?_⟩
    cases m <;> simp [h, Mark.stop, Stop.outcome]

end Sys2Proof.Machine
end

section
/-! PROOFS. The assembler's side (R49 to R52): the instruction selected for an offset is the one whose `imm32` it is, and a taken
call from an aligned `pc` goes to the label a disassembler prints. -/

namespace Sys2Proof.Machine

open Sys2Proof.Claim

/-! ### The fields of an offset -/

/-- The low bits of a sign-extended string are the string's. -/
theorem signExtend_toNat_mod_two_pow {w : Nat} (x : BitVec w) (hw : w ≤ 32) :
    (x.signExtend 32).toNat % 2 ^ w = x.toNat := by
  rw [signExtend_toNat_mod x (2 ^ w) (Nat.dvd_refl _) hw, Nat.mod_eq_of_lt x.isLt]

/-- The string `S:I1:I2:imm10:low` as a number (R42, R43). -/
theorem offsetString_toNat {n : Nat} (S I1 I2 : Bit) (imm10 : BitVec 10) (low : BitVec n) :
    (S ++ I1 ++ I2 ++ imm10 ++ low).toNat =
      (S.toNat * 2 ^ 12 + I1.toNat * 2 ^ 11 + I2.toNat * 2 ^ 10 + imm10.toNat) * 2 ^ n + low.toNat := by
  simp only [append_toNat]
  ring

theorem instrForOffset_imm32A1 (cond : BitVec 4) (imm24 : BitVec 24) :
    instrForOffset .a1 cond (imm32A1 imm24) = .blA1 cond imm24 := by
  have himm := signExtend_toNat_mod_two_pow (imm24 ++ 0b00#2) (by decide)
  have hstring := append_toNat imm24 0b00#2
  have := imm24.isLt
  rw [← imm32A1, hstring] at himm
  simp only [instrForOffset, Instr.blA1.injEq, ← BitVec.toNat_inj, field_toNat, true_and]
  simp at himm
  omega

theorem instrForOffset_imm32A2 (cond : BitVec 4) (H : Bit) (imm24 : BitVec 24) :
    instrForOffset .a2 cond (imm32A2 H imm24) = .blxA2 H imm24 := by
  have himm := signExtend_toNat_mod_two_pow (imm24 ++ H ++ 0#1) (by decide)
  have := imm24.isLt
  have := H.isLt
  rw [← imm32A2] at himm
  simp only [append_toNat] at himm
  simp only [instrForOffset, Instr.blxA2.injEq, ← BitVec.toNat_inj, field_toNat]
  simp at himm
  omega

/-- What the assembler extracts from the `imm32` of a T1. -/
theorem imm32T1_fields (S : Bit) (imm10 : BitVec 10) (J1 J2 : Bit) (imm11 : BitVec 11) :
    (imm32T1 S imm10 J1 J2 imm11).extractLsb' 24 1 = S ∧ (imm32T1 S imm10 J1 J2 imm11).extractLsb' 23 1 = iBit J1 S ∧
    (imm32T1 S imm10 J1 J2 imm11).extractLsb' 22 1 = iBit J2 S ∧
    (imm32T1 S imm10 J1 J2 imm11).extractLsb' 12 10 = imm10 ∧ (imm32T1 S imm10 J1 J2 imm11).extractLsb' 1 11 = imm11 := by
  have himm := signExtend_toNat_mod_two_pow (S ++ iBit J1 S ++ iBit J2 S ++ imm10 ++ imm11 ++ 0#1) (by decide)
  have := S.isLt
  have := (iBit J1 S).isLt
  have := (iBit J2 S).isLt
  have := imm10.isLt
  have := imm11.isLt
  rw [← imm32T1, append_toNat (S ++ iBit J1 S ++ iBit J2 S ++ imm10 ++ imm11), offsetString_toNat] at himm
  simp only [← BitVec.toNat_inj, field_toNat]
  simp at himm
  omega

theorem instrForOffset_imm32T1 (cond : BitVec 4) (S : Bit) (imm10 : BitVec 10) (J1 J2 : Bit) (imm11 : BitVec 11) :
    instrForOffset .t1 cond (imm32T1 S imm10 J1 J2 imm11) = .blT1 S imm10 J1 J2 imm11 := by
  obtain ⟨hS, hI1, hI2, h10, h11⟩ := imm32T1_fields S imm10 J1 J2 imm11
  simp only [instrForOffset, hS, hI1, hI2, h10, h11, iBit_iBit]

/-- What the assembler extracts from the `imm32` of a T2. -/
theorem imm32T2_fields (S : Bit) (imm10H : BitVec 10) (J1 J2 : Bit) (imm10L : BitVec 10) :
    (imm32T2 S imm10H J1 J2 imm10L).extractLsb' 24 1 = S ∧ (imm32T2 S imm10H J1 J2 imm10L).extractLsb' 23 1 = iBit J1 S ∧
    (imm32T2 S imm10H J1 J2 imm10L).extractLsb' 22 1 = iBit J2 S ∧
    (imm32T2 S imm10H J1 J2 imm10L).extractLsb' 12 10 = imm10H ∧
    (imm32T2 S imm10H J1 J2 imm10L).extractLsb' 2 10 = imm10L := by
  have himm := signExtend_toNat_mod_two_pow (S ++ iBit J1 S ++ iBit J2 S ++ imm10H ++ imm10L ++ 0b00#2) (by decide)
  have := S.isLt
  have := (iBit J1 S).isLt
  have := (iBit J2 S).isLt
  have := imm10H.isLt
  have := imm10L.isLt
  rw [← imm32T2, append_toNat (S ++ iBit J1 S ++ iBit J2 S ++ imm10H ++ imm10L), offsetString_toNat] at himm
  simp only [← BitVec.toNat_inj, field_toNat]
  simp at himm
  omega

theorem instrForOffset_imm32T2 (cond : BitVec 4) (S : Bit) (imm10H : BitVec 10) (J1 J2 : Bit) (imm10L : BitVec 10) :
    instrForOffset .t2 cond (imm32T2 S imm10H J1 J2 imm10L) = .blxT2 S imm10H J1 J2 imm10L 0#1 := by
  obtain ⟨hS, hI1, hI2, h10H, h10L⟩ := imm32T2_fields S imm10H J1 J2 imm10L
  simp only [instrForOffset, hS, hI1, hI2, h10H, h10L, iBit_iBit]

/-- The assembler's instruction for the `imm32` of an instruction is that instruction. -/
theorem instrForOffset_immOf {i : Instr} (hu : undefinedEncoding i = false) :
    instrForOffset i.encoding (condField i) (immOf i) = i := by
  cases i with
  | blA1 cond imm24 => exact instrForOffset_imm32A1 cond imm24
  | blxA2 H imm24 => exact instrForOffset_imm32A2 _ H imm24
  | blT1 S imm10 J1 J2 imm11 => exact instrForOffset_imm32T1 _ S imm10 J1 J2 imm11
  | blxT2 S imm10H J1 J2 imm10L H =>
    have hclear : ∀ H : Bit, (H == 1#1) = false → H = 0#1 := by decide
    obtain rfl := hclear H hu
    exact instrForOffset_imm32T2 _ S imm10H J1 J2 imm10L

/-! ### Permitted offsets (R51) -/

/-- The permitted offsets of an encoding are the values of its `imm32` (R40 to R43). -/
theorem permitsOffset_iff (e : Encoding) (k : Int) :
    permitsOffset e k = true ↔ ∃ i : Instr, i.encoding = e ∧ undefinedEncoding i = false ∧ (immOf i).toInt = k := by
  obtain ⟨-, a1, -⟩ := immediateA1HasItsRange
  obtain ⟨-, a2, -⟩ := immediateA2HasItsRange
  obtain ⟨-, -, t1, -⟩ := immediateT1HasItsRange
  obtain ⟨-, t2, -⟩ := immediateT2HasItsRange
  constructor
  · intro h
    cases e <;> simp only [permitsOffset, Bool.and_eq_true, beq_iff_eq, decide_eq_true_eq, and_assoc] at h
    · obtain ⟨imm24, hk⟩ := (a1 k).mpr h
      exact ⟨.blA1 condAL imm24, rfl, rfl, hk⟩
    · obtain ⟨H, imm24, hk⟩ := (a2 k).mpr h
      exact ⟨.blxA2 H imm24, rfl, rfl, hk⟩
    · obtain ⟨S, imm10, J1, J2, imm11, hk⟩ := (t1 k).mpr h
      exact ⟨.blT1 S imm10 J1 J2 imm11, rfl, rfl, hk⟩
    · obtain ⟨S, imm10H, J1, J2, imm10L, hk⟩ := (t2 k).mpr h
      exact ⟨.blxT2 S imm10H J1 J2 imm10L 0#1, rfl, rfl, hk⟩
  · rintro ⟨i, rfl, -, hk⟩
    cases i <;> simp only [Instr.encoding, permitsOffset, Bool.and_eq_true, beq_iff_eq, decide_eq_true_eq, and_assoc]
    · exact (a1 k).mp ⟨_, hk⟩
    · exact (a2 k).mp ⟨_, _, hk⟩
    · exact (t1 k).mp ⟨_, _, _, _, _, hk⟩
    · exact (t2 k).mp ⟨_, _, _, _, _, hk⟩

theorem instrForOffset_encoding (e : Encoding) (cond : BitVec 4) (offset : Word) :
    (instrForOffset e cond offset).encoding = e := by
  cases e <;> rfl

/-- `cond` is encoded beside the offset, not in it (R50). -/
theorem immOf_instrForOffset_cond (e : Encoding) (cond cond' : BitVec 4) (offset : Word) :
    immOf (instrForOffset e cond offset) = immOf (instrForOffset e cond' offset) := by
  cases e <;> rfl

/-- A permitted offset is the `imm32` of the assembler's instruction. -/
theorem immOf_instrForOffset {e : Encoding} {offset : Word} (h : permitsOffset e offset.toInt = true) (cond : BitVec 4) :
    immOf (instrForOffset e cond offset) = offset := by
  obtain ⟨i, rfl, hu, hk⟩ := (permitsOffset_iff e offset.toInt).mp h
  obtain rfl := BitVec.eq_of_toInt_eq hk
  rw [immOf_instrForOffset_cond i.encoding cond (condField i), instrForOffset_immOf hu]

/-- Settles O47: the offset of a printed label is the `imm32`, which is permitted. -/
theorem assembleOfDisassembleIsTheInstruction : Obligations.AssembleOfDisassembleIsTheInstruction := by
  intro i pc hwf hu
  have hoffset : labelOf i pc - labelBase i.encoding pc = immOf i := by
    rw [labelOf, BitVec.add_comm, BitVec.add_sub_cancel]
  have hpermits := (permitsOffset_iff i.encoding _).mpr ⟨i, rfl, hu, rfl⟩
  simp [assemble, hoffset, hpermits, instrForOffset_immOf hu, hwf]

/-! ### The label -/

/-- The target of a taken call from an aligned `pc` is the label a disassembler prints (R52). -/
theorem targetAddress_eq_labelOf {i : Instr} {s : State} (ht : s.t = i.tbit) (ha : pcAligned s.t s.pc = true) :
    s.targetAddress (targetSetOf i.encoding) (immOf i) = labelOf i s.pc := by
  cases i with
  | blA1 cond imm24 =>
    have hs : s.t = false := ht
    rw [hs, pcAligned_a32] at ha
    have hbase : align4 (s.pc + 8#32) = s.pc + 8#32 := align4_of_mod (by rw [BitVec.toNat_add]; simp; omega)
    simp [State.targetAddress, targetSetOf, labelOf, labelBase, Instr.encoding, State.pcRead_eq, hs, hbase, Config.pcOffsetA32]
  | blxA2 | blT1 | blxT2 =>
    simp [State.targetAddress, targetSetOf, labelOf, labelBase, State.pcRead_eq, ht, Instr.tbit, Instr.encoding,
      Encoding.tbit, Config.pcOffsetA32, Config.pcOffsetT32]

/-- Settles O46: the selected instruction has the label's offset as its `imm32`, so the label is what it prints and where a taken
call of it goes. -/
theorem assembledCallReachesItsLabel : Obligations.AssembledCallReachesItsLabel := by
  intro e cond s label i h
  obtain ⟨⟨hpermits, hwf⟩, rfl⟩ :
      (permitsOffset e (label - labelBase e s.pc).toInt = true ∧
        (instrForOffset e cond (label - labelBase e s.pc)).wf = true) ∧
      instrForOffset e cond (label - labelBase e s.pc) = i := by
    simpa [assemble] using h
  have henc := instrForOffset_encoding e cond (label - labelBase e s.pc)
  have hlabel : labelOf (instrForOffset e cond (label - labelBase e s.pc)) s.pc = label := by
    rw [labelOf, henc, immOf_instrForOffset hpermits, BitVec.add_comm, BitVec.sub_add_cancel]
  refine ⟨hwf, henc, hlabel, fun hexec hp ha => ⟨_, exec_of_executes hexec, ?_⟩⟩
  rw [afterInstr_pc_of_passed hp ha, targetAddress_eq_labelOf (tbit_of_executes hexec) ha, hlabel]

end Sys2Proof.Machine
end
